-- ==== Sys2Proof/Word.lean ====
section
/-! DEFINITION. The words of the CRC16 core: every register, table entry, operand and datapath is exactly 16 bits
unsigned, every byte exactly 8 bits unsigned (70_reset_and_hazards.md R191), every command one 32-bit word (R60). -/

namespace Sys2Proof

/-- A byte, `u8` of 00_scope.md R10. -/
abbrev Byte := BitVec 8

/-- A CRC value, table entry or command result, `u16` of 00_scope.md R10. -/
abbrev Word := BitVec 16

/-- A command word (30_encoding.md R60). -/
abbrev Cmd := BitVec 32

end Sys2Proof
end

