-- ==== Sys2Proof/Config.lean ====
section
/-! DEFINITION. What is fixed for the machine: the hard-wired constants (00_scope.md R7), the build-time parameters
(R8), and the one free value, what a table entry holds before the builder has written it. -/

namespace Sys2Proof

/-- The two lookup tables of the table index space (20_memory.md R40): `TD` and `TR`. -/
inductive TableSel where
  | direct
  | reflected
deriving DecidableEq, Repr

namespace Config

/-- `POLY_D`, the direct polynomial (R7). -/
def polyD : Word := 0x8005#16

/-- `POLY_R`, the bit-reflected polynomial (R7). -/
def polyR : Word := 0xA001#16

/-- `TBL_N`, entries per lookup table (R7). -/
def tblN : Nat := 256

/-- `INIT`, the initial CRC register of DBS, DTB, RBS and RTB (R7). -/
def initCrc : Word := 0x0000#16

/-- `ARC_INIT`, the initial CRC register of ARC, a constant of its own (R7, R112). -/
def arcInit : Word := 0x0000#16

/-- `ARC_XOROUT`, the final XOR of ARC, a constant of its own (R7, R112). -/
def arcXorout : Word := 0x0000#16

/-- The largest `NCH` (R8): the `CH` field has four bits. -/
def maxChannels : Nat := 16

/-- The build-time parameters a built core keeps with it, and which no command reads or sets (R8): the depth `RSPQ` of
the response queue, and of `RESET_STYLE` the level at which `rst` is asserted. `NCH` is the number of channels the
state holds. -/
structure Build where
  rspq : Nat
  rstActive : Bool
deriving DecidableEq, Repr

/-- All build-time parameters (R8). `NCH` has the spec's default 1. The values of `RSPQ` and of the reset polarity are
DESIGN CHOICES (log 4 and 5): the spec states none. -/
structure Params where
  nch : Nat := 1
  build : Build := { rspq := 1, rstActive := true }
deriving DecidableEq, Repr

/-- The ranges of R8. -/
abbrev Params.Legal (p : Params) : Prop :=
  1 ≤ p.nch ∧ p.nch ≤ maxChannels ∧ 1 ≤ p.build.rspq

/-- What a table entry reads as before the builder has written it: unspecified (10_state.md R34, I2), so a FREE VALUE
that nothing constrains (log 9). No command can observe it (R182). -/
opaque unbuiltEntry : TableSel → Byte → Word

end Config

end Sys2Proof
end

