-- ==== Sys2Proof/Syntax.lean ====
section
/-! DEFINITION. The commands of CRC16-CMD version 1 as data: one constructor per row of the opcode map
(30_encoding.md R63), the five variants (00_scope.md R2) and the error codes (60_exceptions.md R160). -/

namespace Sys2Proof

/-- The five checksum variants (R2). -/
inductive Variant where
  | dbs
  | dtb
  | rbs
  | rtb
  | arc
deriving DecidableEq, Repr

/-- The variant code of R2, as `MODE[c]` holds it in 3 bits (R21). -/
def Variant.code : Variant → BitVec 3
  | .dbs => 0#3
  | .dtb => 1#3
  | .rbs => 2#3
  | .rtb => 3#3
  | .arc => 4#3

/-- One command (R63). A channel is a number of the `CH` field, 0 to 15; whether the core has that channel is checked
when the command runs (R162). -/
inductive Instr where
  | nop
  | startDbs (c : Nat)
  | startDtb (c : Nat)
  | startRbs (c : Nat)
  | startRtb (c : Nat)
  | startArc (c : Nat)
  | feed (c : Nat) (b : Byte)
  | finish (c : Nat)
  | stat
  | tblrdD (i : Byte)
  | tblrdR (i : Byte)
  | step8d (w : Word)
  | step8r (w : Word)
  | rev8 (x : Byte)
  | rev16 (w : Word)
deriving DecidableEq, Repr

/-- `START.v` of a variant `v` (R142). -/
def Instr.start : Variant → Nat → Instr
  | .dbs, c => .startDbs c
  | .dtb, c => .startDtb c
  | .rbs, c => .startRbs c
  | .rtb, c => .startRtb c
  | .arc, c => .startArc c

/-- The channel a checksum command names (R62); the other commands name none. -/
def Instr.channel? : Instr → Option Nat
  | .nop => none
  | .startDbs c => some c
  | .startDtb c => some c
  | .startRbs c => some c
  | .startRtb c => some c
  | .startArc c => some c
  | .feed c _ => some c
  | .finish c => some c
  | .stat => none
  | .tblrdD _ => none
  | .tblrdR _ => none
  | .step8d _ => none
  | .step8r _ => none
  | .rev8 _ => none
  | .rev16 _ => none

/-- The variant a START command opens, for START commands only (R142). -/
def Instr.startVariant? : Instr → Option Variant
  | .nop => none
  | .startDbs _ => some .dbs
  | .startDtb _ => some .dtb
  | .startRbs _ => some .rbs
  | .startRtb _ => some .rtb
  | .startArc _ => some .arc
  | .feed _ _ => none
  | .finish _ => none
  | .stat => none
  | .tblrdD _ => none
  | .tblrdR _ => none
  | .step8d _ => none
  | .step8r _ => none
  | .rev8 _ => none
  | .rev16 _ => none

/-- The error codes of a response (R160). -/
inductive ErrCode where
  | ok
  | reserved
  | channel
  | notOpen
deriving DecidableEq, Repr

/-- `ERR` as the two bits of `rsp_err_o` (R160). -/
def ErrCode.code : ErrCode → BitVec 2
  | .ok => 0#2
  | .reserved => 1#2
  | .channel => 2#2
  | .notOpen => 3#2

end Sys2Proof
end

