-- ==== Sys2Proof/WellFormed.lean ====
section
/-! DEFINITION. Which commands a word can carry: a channel number fits the four bits of `CH` (30_encoding.md R60, R62).
Bytes and words have their exact widths by type (R191), so nothing else can be out of range. -/

namespace Sys2Proof

/-- A channel number fits the `CH` field: 0 to 15 (R62). -/
def channelFits (c : Nat) : Bool := decide (c < Config.maxChannels)

/-- The command is one that some word encodes. -/
def Instr.wf : Instr → Bool
  | .nop => true
  | .startDbs c => channelFits c
  | .startDtb c => channelFits c
  | .startRbs c => channelFits c
  | .startRtb c => channelFits c
  | .startArc c => channelFits c
  | .feed c _ => channelFits c
  | .finish c => channelFits c
  | .stat => true
  | .tblrdD _ => true
  | .tblrdR _ => true
  | .step8d _ => true
  | .step8r _ => true
  | .rev8 _ => true
  | .rev16 _ => true

/-- `Instr.wf` as a proposition. -/
abbrev Instr.WellFormed (i : Instr) : Prop := i.wf = true

end Sys2Proof
end

