-- ==== Sys2Proof/Decode.lean ====
section
/-! DEFINITION. The command word `CMD32` (30_encoding.md R60), its decoder (R64), total on every word and rejecting by
name, the encoder, and the opcode map of R63 as the spec prints it. -/

namespace Sys2Proof

/-- The four fields of a command word (R60). -/
structure Fields where
  op : BitVec 4
  ch : BitVec 4
  sel : BitVec 8
  data : BitVec 16
deriving DecidableEq, Repr

/-- `OP = cmd[31:28]`, `CH = cmd[27:24]`, `SEL = cmd[23:16]`, `DATA = cmd[15:0]` (R60). -/
def Fields.ofWord (w : Cmd) : Fields where
  op := w.extractLsb' 28 4
  ch := w.extractLsb' 24 4
  sel := w.extractLsb' 16 8
  data := w.extractLsb' 0 16

/-- The word with these fields (R60). -/
def Fields.toWord (f : Fields) : Cmd :=
  (f.op.zeroExtend 32 <<< 28) ||| (f.ch.zeroExtend 32 <<< 24) ||| (f.sel.zeroExtend 32 <<< 16) ||| f.data.zeroExtend 32

/-- Why a word selects no row of R63: its opcode is reserved (R65), or a field lies outside its opcode's rows (R66).
Both are answered with E_RESERVED. -/
inductive DecodeError where
  | reservedOpcode
  | reservedField
deriving DecidableEq, Repr

/-- The answer when the row's must-be-zero fields hold (`ok`), else the error of R66. -/
def guardField (ok : Bool) (i : Instr) : Except DecodeError Instr :=
  if ok then .ok i else .error .reservedField

/-- The byte operand `DATA[7:0]` (R62). -/
def Fields.byte (f : Fields) : Byte := f.data.extractLsb' 0 8

/-- `DATA[15:8] = 0`, required where `DATA` carries a byte (R60). -/
def Fields.byteOk (f : Fields) : Bool := f.data.extractLsb' 8 8 == 0#8

/-- `CH = 0` and `SEL = 0`, required of the commands that name neither channel nor selector (R60). -/
def Fields.plain (f : Fields) : Bool := f.ch == 0#4 && f.sel == 0#8

/-- START: the variant is the selector, `DATA` is 0 (R63); codes 5 and above are reserved (R66). -/
def decodeStart (f : Fields) : Except DecodeError Instr :=
  if f.data == 0#16 then
    match f.sel.toNat with
    | 0 => .ok (.startDbs f.ch.toNat)
    | 1 => .ok (.startDtb f.ch.toNat)
    | 2 => .ok (.startRbs f.ch.toNat)
    | 3 => .ok (.startRtb f.ch.toNat)
    | 4 => .ok (.startArc f.ch.toNat)
    | _ => .error .reservedField
  else .error .reservedField

/-- TBLRD: the table is the selector, 0 direct or 1 reflected (R63); others are reserved (R66). -/
def decodeTblrd (f : Fields) : Except DecodeError Instr :=
  if f.ch == 0#4 && f.byteOk then
    match f.sel.toNat with
    | 0 => .ok (.tblrdD f.byte)
    | 1 => .ok (.tblrdR f.byte)
    | _ => .error .reservedField
  else .error .reservedField

/-- The row the fields select, with its operands (R63, R64). -/
def decodeFields (f : Fields) : Except DecodeError Instr :=
  match f.op.toNat with
  | 0 => guardField (f.plain && f.data == 0#16) .nop
  | 1 => decodeStart f
  | 2 => guardField (f.sel == 0#8 && f.byteOk) (.feed f.ch.toNat f.byte)
  | 3 => guardField (f.sel == 0#8 && f.data == 0#16) (.finish f.ch.toNat)
  | 4 => guardField (f.plain && f.data == 0#16) .stat
  | 5 => decodeTblrd f
  | 6 => guardField f.plain (.step8d f.data)
  | 7 => guardField f.plain (.step8r f.data)
  | 8 => guardField (f.plain && f.byteOk) (.rev8 f.byte)
  | 9 => guardField f.plain (.rev16 f.data)
  | _ => .error .reservedOpcode

/-- Decoding is a total function of the 32-bit word (R64). The channel check of R64 against `NCH` is
`decodeCommand`. -/
def decode (w : Cmd) : Except DecodeError Instr := decodeFields (Fields.ofWord w)

/-- `decode(cmd)` of R64 whole, for a core of `nch` channels: first the row, then the channel. -/
def decodeCommand (nch : Nat) (w : Cmd) : Except ErrCode Instr :=
  match decode w with
  | .error _ => .error .reserved
  | .ok i =>
    match i.channel? with
    | some c => if c < nch then .ok i else .error .channel
    | none => .ok i

/-- A byte operand in `DATA`, the high byte 0 (R60). -/
def byteData (b : Byte) : BitVec 16 := b.zeroExtend 16

/-- The fields of a command (R63). -/
def Instr.fields : Instr → Fields
  | .nop => ⟨0x0#4, 0#4, 0#8, 0#16⟩
  | .startDbs c => ⟨0x1#4, BitVec.ofNat 4 c, 0#8, 0#16⟩
  | .startDtb c => ⟨0x1#4, BitVec.ofNat 4 c, 1#8, 0#16⟩
  | .startRbs c => ⟨0x1#4, BitVec.ofNat 4 c, 2#8, 0#16⟩
  | .startRtb c => ⟨0x1#4, BitVec.ofNat 4 c, 3#8, 0#16⟩
  | .startArc c => ⟨0x1#4, BitVec.ofNat 4 c, 4#8, 0#16⟩
  | .feed c b => ⟨0x2#4, BitVec.ofNat 4 c, 0#8, byteData b⟩
  | .finish c => ⟨0x3#4, BitVec.ofNat 4 c, 0#8, 0#16⟩
  | .stat => ⟨0x4#4, 0#4, 0#8, 0#16⟩
  | .tblrdD i => ⟨0x5#4, 0#4, 0#8, byteData i⟩
  | .tblrdR i => ⟨0x5#4, 0#4, 1#8, byteData i⟩
  | .step8d w => ⟨0x6#4, 0#4, 0#8, w⟩
  | .step8r w => ⟨0x7#4, 0#4, 0#8, w⟩
  | .rev8 x => ⟨0x8#4, 0#4, 0#8, byteData x⟩
  | .rev16 w => ⟨0x9#4, 0#4, 0#8, w⟩

/-- The word of a well-formed command (R63). -/
def encode (i : Instr) : Cmd := i.fields.toWord

/-- One row of the opcode map: its `mask` and `match` columns (R63). -/
structure OpcodeRow where
  mask : Cmd
  pattern : Cmd
deriving DecidableEq, Repr

/-- The row of the opcode map a command stands in, `mask` and `match` copied from R63. -/
def Instr.row : Instr → OpcodeRow
  | .nop => ⟨0xFFFFFFFF#32, 0x00000000#32⟩
  | .startDbs _ => ⟨0xF0FFFFFF#32, 0x10000000#32⟩
  | .startDtb _ => ⟨0xF0FFFFFF#32, 0x10010000#32⟩
  | .startRbs _ => ⟨0xF0FFFFFF#32, 0x10020000#32⟩
  | .startRtb _ => ⟨0xF0FFFFFF#32, 0x10030000#32⟩
  | .startArc _ => ⟨0xF0FFFFFF#32, 0x10040000#32⟩
  | .feed _ _ => ⟨0xF0FFFF00#32, 0x20000000#32⟩
  | .finish _ => ⟨0xF0FFFFFF#32, 0x30000000#32⟩
  | .stat => ⟨0xFFFFFFFF#32, 0x40000000#32⟩
  | .tblrdD _ => ⟨0xFFFFFF00#32, 0x50000000#32⟩
  | .tblrdR _ => ⟨0xFFFFFF00#32, 0x50010000#32⟩
  | .step8d _ => ⟨0xFFFF0000#32, 0x60000000#32⟩
  | .step8r _ => ⟨0xFFFF0000#32, 0x70000000#32⟩
  | .rev8 _ => ⟨0xFFFFFF00#32, 0x80000000#32⟩
  | .rev16 _ => ⟨0xFFFF0000#32, 0x90000000#32⟩

/-- One command of each row, in the order of R63, so that the rows can be listed. -/
def rowSamples : List Instr :=
  [.nop, .startDbs 0, .startDtb 0, .startRbs 0, .startRtb 0, .startArc 0, .feed 0 0#8, .finish 0, .stat, .tblrdD 0#8,
    .tblrdR 0#8, .step8d 0#16, .step8r 0#16, .rev8 0#8, .rev16 0#16]

/-- The opcode map of R63, its 15 rows. -/
def opcodeRows : List OpcodeRow := rowSamples.map Instr.row

/-- A word selects the row whose `(cmd & mask) = match` (R63). -/
def OpcodeRow.selects (r : OpcodeRow) (w : Cmd) : Bool := w &&& r.mask == r.pattern

/-- The command the decoder reads from a word numbered as spec/opcode_table.json numbers it: bit 0 is the least
significant bit of the one 32-bit word, and every bit the table gives no value is 0. A number that does not fit
32 bits is no command word (R68). -/
def decodeTableWord (nbits w : Nat) : Option Instr :=
  if nbits ≤ 32 ∧ w < 2 ^ nbits then
    match decode (BitVec.ofNat 32 w) with
    | .ok i => some i
    | .error _ => none
  else none

end Sys2Proof
end

