-- ==== Sys2Proof/Machine/Arith.lean ====
section
/-! DEFINITION. The arithmetic of the CRC Engine, on exact 16-bit and 8-bit words: the eight-step shift-XOR loops and the
parallel XOR network (40_datapath.md R80 to R82), the table entries the builder writes (R84, R85), the reversal helpers
(43_reversal.md R130, R131), the per-byte updates (41_bit_serial.md, 42_table_driven.md), and the checksum of a byte
sequence (44_call_control.md R147). -/

namespace Sys2Proof.Machine

open Sys2Proof

/-- `zext_16(b)` (00_scope.md R10). -/
def zext16 (b : Byte) : Word := b.zeroExtend 16

/-- The high byte `v[15:8]` (R9). -/
def highByte (v : Word) : Byte := v.extractLsb' 8 8

/-- The low byte `v[7:0]` (R9). -/
def lowByte (v : Word) : Byte := v.extractLsb' 0 8

/-- `n` rounds of a step. -/
def rounds (f : Word → Word) : Nat → Word → Word
  | 0, a => a
  | n + 1, a => rounds f n (f a)

/-- One step of the direct loop: the test reads bit 15 before the shift (R80). -/
def stepD (a : Word) : Word :=
  if a.getLsbD 15 then (a <<< 1) ^^^ Config.polyD else a <<< 1

/-- One step of the reflected loop: the test reads bit 0 before the shift (R81). -/
def stepR (a : Word) : Word :=
  if a.getLsbD 0 then (a >>> 1) ^^^ Config.polyR else a >>> 1

/-- `step8D`, the direct eight-step loop (R80). -/
def step8D (a : Word) : Word := rounds stepD 8 a

/-- `step8R`, the reflected eight-step loop (R81). -/
def step8R (a : Word) : Word := rounds stepR 8 a

/-- The XOR of the named bits of `a`. -/
def xorBits (a : Word) (ks : List Nat) : Bool := ks.foldl (fun acc k => acc ^^ a.getLsbD k) false

/-- The word whose bits, from bit 15 down, are the XORs of the named input bits. -/
def xorNetwork (rows : List (List Nat)) (a : Word) : Word :=
  rows.foldl (fun acc ks => (acc <<< 1) ||| (BitVec.ofBool (xorBits a ks)).zeroExtend 16) 0#16

/-- The `step8D(a)` column of the table in R82, from `out[15]` to `out[0]`. -/
def networkRowsD : List (List Nat) :=
  [[15, 14, 13, 12, 11, 10, 9, 8, 7], [6], [5], [4], [3], [2], [15, 1], [15, 14, 0], [14, 13], [13, 12], [12, 11],
    [11, 10], [10, 9], [9, 8], [15, 14, 13, 12, 11, 10, 9], [15, 14, 13, 12, 11, 10, 9, 8]]

/-- The `step8R(a)` column of the table in R82, from `out[15]` to `out[0]`. -/
def networkRowsR : List (List Nat) :=
  [[7, 6, 5, 4, 3, 2, 1, 0], [6, 5, 4, 3, 2, 1, 0], [7, 6], [6, 5], [5, 4], [4, 3], [3, 2], [2, 1], [15, 1, 0], [14, 0],
    [13], [12], [11], [10], [9], [8, 7, 6, 5, 4, 3, 2, 1, 0]]

/-- The parallel XOR-shift datapath for `step8D` (R82). -/
def networkD (a : Word) : Word := xorNetwork networkRowsD a

/-- The parallel XOR-shift datapath for `step8R` (R82). -/
def networkR (a : Word) : Word := xorNetwork networkRowsR a

/-- What the builder writes at `TD[i]` (R84). -/
def tdEntry (i : Byte) : Word := step8D (zext16 i <<< 8)

/-- What the builder writes at `TR[i]` (R85). -/
def trEntry (i : Byte) : Word := step8R (zext16 i)

/-- What the builder writes at index `i` of a table (R84, R85). -/
def tableEntry : TableSel → Byte → Word
  | .direct, i => tdEntry i
  | .reflected, i => trEntry i

/-- The first `n` entries of a table as the builder writes them, in index order (R86). -/
def builtEntries (t : TableSel) (n : Nat) : List Word :=
  (List.range n).map fun k => tableEntry t (BitVec.ofNat 8 k)

/-- A whole table (R29): `TBL_N` entries. -/
def builtTable (t : TableSel) : List Word := builtEntries t Config.tblN

/-- `rev8`: bit `k` of the result is bit `7 - k` of the operand (R130). -/
def rev8 (x : Byte) : Byte := x.reverse

/-- `rev16`: each byte reversed and the two swapped (R131). -/
def rev16 (w : Word) : Word := rev8 (lowByte w) ++ rev8 (highByte w)

/-- `upd_DBS` (R100). -/
def updDBS (a : Word) (b : Byte) : Word := step8D (a ^^^ (zext16 b <<< 8))

/-- `upd_RBS` (R101). -/
def updRBS (a : Word) (b : Byte) : Word := step8R (a ^^^ zext16 b)

/-- `upd_DTB` over the direct table `td` (R110). -/
def updDTB (td : Byte → Word) (a : Word) (b : Byte) : Word := (a <<< 8) ^^^ td (highByte a ^^^ b)

/-- `upd_RTB` over the reflected table `tr` (R111). -/
def updRTB (tr : Byte → Word) (a : Word) (b : Byte) : Word := (a >>> 8) ^^^ tr (lowByte (a ^^^ zext16 b))

/-- `init(v)` (R143). -/
def initOf : Variant → Word
  | .dbs => Config.initCrc
  | .dtb => Config.initCrc
  | .rbs => Config.initCrc
  | .rtb => Config.initCrc
  | .arc => Config.arcInit

/-- `xorout(v)` (R143): 0 is "no final XOR", but ARC's is its named constant. -/
def xoroutOf : Variant → Word
  | .dbs => 0#16
  | .dtb => 0#16
  | .rbs => 0#16
  | .rtb => 0#16
  | .arc => Config.arcXorout

/-- `upd(v)` over the tables `td` and `tr` (R143); the bit-serial variants read none (R30). -/
def updOf (td tr : Byte → Word) : Variant → Word → Byte → Word
  | .dbs, a, b => updDBS a b
  | .dtb, a, b => updDTB td a b
  | .rbs, a, b => updRBS a b
  | .rtb, a, b => updRTB tr a b
  | .arc, a, b => updRTB tr a b

/-- `foldl upd(v) a d` with the built tables (R147). -/
def accAfter (v : Variant) (a : Word) (d : List Byte) : Word := d.foldl (updOf tdEntry trEntry v) a

/-- `CRC_v(d)`, the checksum of a byte sequence (R147). -/
def crc (v : Variant) (d : List Byte) : Word := accAfter v (initOf v) d ^^^ xoroutOf v

end Sys2Proof.Machine
end

