-- ==== Sys2Proof/Machine/State.lean ====
section
/-! DEFINITION. The state of the core (10_state.md), with the words its ports carry, and the state after reset (R34). -/

namespace Sys2Proof.Machine

open Sys2Proof

/-- A response: `ERR` and `RDATA` (30_encoding.md R61). -/
structure Response where
  err : ErrCode
  data : Word
deriving DecidableEq, Repr

/-- A channel (R21), as the sum type R21 proposes: `OPEN = 0` with `MODE = none` and `ACC = none` (R25), or `OPEN = 1`
with the variant and the CRC register of the open call. -/
inductive Channel where
  | idle
  | opened (mode : Variant) (acc : Word)
deriving DecidableEq, Repr

/-- What moves next (log 6): the core, the host offering a word on the command port, the host taking a response, or the
platform driving the `rst` input to a level. -/
inductive Turn where
  | core
  | offer (w : Cmd)
  | take
  | rst (level : Bool)
deriving DecidableEq, Repr

/-- Why a step stops. NO constructor: the spec gives the core no behaviour that stops it. Its arithmetic is total
(60_exceptions.md R166), its three errors are responses after which it goes on (R164), and it has no trap (R169).
Nothing raises a fault; that is exact (log 15). -/
inductive Fault where
deriving DecidableEq, Repr

/-- Why an instruction has no meaning. -/
inductive Refusal where
  /-- Raised by an arm of `exec` that has no meaning yet; no arm does. Safe. -/
  | notModelled (mnemonic : String)
deriving DecidableEq, Repr

/-- The state (R20, R31, R32, R35). `chans` holds the `NCH` channels in order. `td` and `tr` hold, in index order, the
table entries written since reset (R86). `queue` is the response queue, its front first (R31). `cmds` are the words the
host is offering, the head on `cmd_data_i` (R36). `inFlight` is a command accepted but not completed (R180). `turns` and
`taken` are the model's own: what moves next (log 6), and the responses the host has taken, oldest first (R194). -/
structure State where
  cfg : Config.Build
  rst : Bool
  built : Bool
  td : List Word
  tr : List Word
  chans : List Channel
  inFlight : Option Cmd
  queue : List Response
  cmds : List Cmd
  turns : List Turn
  taken : List Response
deriving DecidableEq, Repr

/-- The state after reset and once `ready_o = 1`, for any build-time parameters (R34, R183). -/
def State.resetWith (p : Config.Params) : State where
  cfg := p.build
  rst := !p.build.rstActive
  built := true
  td := builtTable .direct
  tr := builtTable .reflected
  chans := List.replicate p.nch .idle
  inFlight := none
  queue := []
  cmds := []
  turns := []
  taken := []

/-- The state after reset (R34) of a core with the parameters of `Config.Params`: the spec's default `NCH = 1`, and the
DESIGN CHOICES of log 4 and 5. -/
def State.reset : State := State.resetWith {}

end Sys2Proof.Machine
end

