-- ==== Sys2Proof/Machine/Operands.lean ====
section
/-! DEFINITION. How a command reads its operands from the state: table entries (20_memory.md R41) and channels (R21). -/

namespace Sys2Proof.Machine

open Sys2Proof

/-- `NCH`: the number of channels (R8). -/
def State.nch (s : State) : Nat := s.chans.length

/-- The entries of a table written since reset, in index order. -/
def State.table (s : State) : TableSel → List Word
  | .direct => s.td
  | .reflected => s.tr

/-- `TblRead(t, i)` (R41): the whole entry, without side effects (R48). An entry the builder has not written is the
free value (log 9). -/
def State.tblRead (s : State) (t : TableSel) (i : Byte) : Word :=
  match (s.table t)[i.toNat]? with
  | some v => v
  | none => Config.unbuiltEntry t i

/-- Channel `c`, if the core has it: `c < NCH` (R162). -/
def State.chan? (s : State) (c : Nat) : Option Channel := s.chans[c]?

/-- `upd(v)` over the tables of the state (R143). -/
def State.upd (s : State) (v : Variant) (a : Word) (b : Byte) : Word :=
  updOf (s.tblRead .direct) (s.tblRead .reflected) v a b

end Sys2Proof.Machine
end

