-- ==== Sys2Proof/Machine/Flags.lean ====
section
/-! DEFINITION. The one status flag of the core, `OPEN[c]` (10_state.md R24), and the mask STAT answers (R148). The core
has no condition codes (R26). -/

namespace Sys2Proof.Machine

open Sys2Proof

/-- `OPEN` of a channel (R21). -/
def Channel.isOpen : Channel → Bool
  | .idle => false
  | .opened _ _ => true

/-- `OPEN[c]`; false where the core has no channel `c`. -/
def State.isOpen (s : State) (c : Nat) : Bool :=
  match s.chan? c with
  | some ch => ch.isOpen
  | none => false

/-- The mask of a list of channels whose first is channel `k`: bit `c` is `OPEN[c]` (R148). -/
def openMaskFrom : Nat → List Channel → Word
  | _, [] => 0#16
  | k, ch :: rest => (if ch.isOpen then 1#16 <<< k else 0#16) ||| openMaskFrom (k + 1) rest

/-- The mask `m` of R148: `m[c] = OPEN[c]` for `c < NCH`, the other bits 0. -/
def State.openMask (s : State) : Word := openMaskFrom 0 s.chans

end Sys2Proof.Machine
end

