-- ==== Sys2Proof/Machine/Ops.lean ====
section
/-! DEFINITION. The shared operations: responding, raising an error (the one exception mechanism of this core, R164),
opening and updating channels, the table builder (R86), reset (R180), and the two ports (R36). -/

namespace Sys2Proof.Machine

open Sys2Proof

/-- `respond(err, data)`: the one response of a command joins the back of the queue (R11, R37). -/
def State.respond (s : State) (e : ErrCode) (d : Word) : State :=
  { s with queue := s.queue ++ [⟨e, d⟩] }

/-- `raise E_X`: respond `(code, 0x0000)` and change nothing else (R11, R164). There is no return from an error, since
there is no trap (R169). -/
def State.raise (s : State) (e : ErrCode) : State := s.respond e 0#16

/-- Give channel `c` a new content; the others keep theirs (R51). -/
def State.setChan (s : State) (c : Nat) (ch : Channel) : State :=
  { s with chans := s.chans.set c ch }

/-- START.v on channel `c` (R142): E_CHANNEL where `c >= NCH`; else the channel opens with `init(v)`, whether or not a
call was open on it. -/
def State.startCall (s : State) (v : Variant) (c : Nat) : State :=
  match s.chan? c with
  | none => s.raise .channel
  | some _ => (s.setChan c (.opened v (initOf v))).respond .ok 0#16

/-- FEED of byte `b` to channel `c` (R144): E_CHANNEL, then E_NOT_OPEN (R165), else the update of the channel's mode. -/
def State.feedCall (s : State) (c : Nat) (b : Byte) : State :=
  match s.chan? c with
  | none => s.raise .channel
  | some .idle => s.raise .notOpen
  | some (.opened v a) => (s.setChan c (.opened v (s.upd v a b))).respond .ok 0#16

/-- FINISH of channel `c` (R146): E_CHANNEL, then E_NOT_OPEN (R165), else the checksum, and the channel closes. -/
def State.finishCall (s : State) (c : Nat) : State :=
  match s.chan? c with
  | none => s.raise .channel
  | some .idle => s.raise .notOpen
  | some (.opened v a) => (s.setChan c .idle).respond .ok (a ^^^ xoroutOf v)

/-- `rst` stands at its asserted level (R35, `RESET_STYLE`). -/
def State.inReset (s : State) : Bool := s.rst == s.cfg.rstActive

/-- What reset does (R180): every channel closes, the response queue empties, a command in progress is dropped without a
response, the build status is 0, and no table entry counts as written (R34). The host's side is not the core's to
change: words offered but not accepted stay offered (R182), responses already taken stay taken. -/
def State.clearByReset (s : State) : State :=
  { s with
    built := false, td := [], tr := [], chans := s.chans.map fun _ => .idle, inFlight := none, queue := [] }

/-- The platform drives `rst` to a level; asserting it resets the core at once (R180, log 5). -/
def State.driveReset (s : State) (level : Bool) : State :=
  if level == s.cfg.rstActive then State.clearByReset { s with rst := level } else { s with rst := level }

/-- One move of the table builder (R86): the next entry of `TD`, then of `TR`, and when both are whole the build status.
The order is a DESIGN CHOICE that nothing can observe (log 8). -/
def State.buildStep (s : State) : State :=
  if s.td.length < Config.tblN then { s with td := s.td ++ [tableEntry .direct (BitVec.ofNat 8 s.td.length)] }
  else if s.tr.length < Config.tblN then { s with tr := s.tr ++ [tableEntry .reflected (BitVec.ofNat 8 s.tr.length)] }
  else { s with built := true }

/-- `ready_o` (R38). -/
def State.readyO (s : State) : Bool := s.built

/-- `cmd_ready_o` (R36): 0 while `ready_o = 0` or while the response queue is full; 0 also during reset (R180) and while a
command is in flight (log 7). -/
def State.cmdReadyO (s : State) : Bool :=
  !s.inReset && s.built && s.inFlight.isNone && decide (s.queue.length < s.cfg.rspq)

/-- `rsp_valid_o`: the core offers a response (R35). -/
def State.rspValidO (s : State) : Bool := !s.queue.isEmpty

/-- `rsp_err_o`, two bits; no value while `rsp_valid_o = 0` (log 14). -/
def State.rspErrO (s : State) : Option (BitVec 2) := s.queue.head?.map fun r => r.err.code

/-- `rsp_data_o`; no value while `rsp_valid_o = 0` (log 14). -/
def State.rspDataO (s : State) : Option Word := s.queue.head?.map fun r => r.data

/-- The host offers one more word on the command port, behind those it is offering (R36). -/
def State.offerCmd (s : State) (w : Cmd) : State := { s with cmds := s.cmds ++ [w] }

/-- A command transfer, if there is one: `cmd_valid_i = 1` and `cmd_ready_o = 1` (R36). -/
def State.acceptCmd (s : State) : State :=
  match s.cmds with
  | [] => s
  | w :: ws => if s.cmdReadyO then { s with cmds := ws, inFlight := some w } else s

/-- A response transfer, if there is one: `rsp_valid_o = 1` and `rsp_ready_i = 1` (R36). -/
def State.takeRsp (s : State) : State :=
  match s.queue with
  | [] => s
  | r :: rs => { s with queue := rs, taken := s.taken ++ [r] }

end Sys2Proof.Machine
end

