-- ==== Sys2Proof/Machine/Calls.lean ====
section
/-! DEFINITION. The meanings of NOP, START.v, FEED, FINISH and STAT (44_call_control.md). -/

namespace Sys2Proof.Machine

open Sys2Proof

/-- NOP (R141). -/
def execNop (s : State) : Host.Outcome State Fault Refusal := .next (s.respond .ok 0#16)

/-- START.DBS (R142). -/
def execStartDbs (c : Nat) (s : State) : Host.Outcome State Fault Refusal := .next (s.startCall .dbs c)

/-- START.DTB (R142). -/
def execStartDtb (c : Nat) (s : State) : Host.Outcome State Fault Refusal := .next (s.startCall .dtb c)

/-- START.RBS (R142). -/
def execStartRbs (c : Nat) (s : State) : Host.Outcome State Fault Refusal := .next (s.startCall .rbs c)

/-- START.RTB (R142). -/
def execStartRtb (c : Nat) (s : State) : Host.Outcome State Fault Refusal := .next (s.startCall .rtb c)

/-- START.ARC (R142). -/
def execStartArc (c : Nat) (s : State) : Host.Outcome State Fault Refusal := .next (s.startCall .arc c)

/-- FEED (R144). -/
def execFeed (c : Nat) (b : Byte) (s : State) : Host.Outcome State Fault Refusal := .next (s.feedCall c b)

/-- FINISH (R146). -/
def execFinish (c : Nat) (s : State) : Host.Outcome State Fault Refusal := .next (s.finishCall c)

/-- STAT (R148). -/
def execStat (s : State) : Host.Outcome State Fault Refusal := .next (s.respond .ok s.openMask)

end Sys2Proof.Machine
end

