-- ==== Sys2Proof/Machine/Datapath.lean ====
section
/-! DEFINITION. The meanings of TBLRD.D, TBLRD.R, STEP8D and STEP8R (40_datapath.md). -/

namespace Sys2Proof.Machine

open Sys2Proof

/-- TBLRD.D (R88). -/
def execTblrdD (i : Byte) (s : State) : Host.Outcome State Fault Refusal := .next (s.respond .ok (s.tblRead .direct i))

/-- TBLRD.R (R88). -/
def execTblrdR (i : Byte) (s : State) : Host.Outcome State Fault Refusal :=
  .next (s.respond .ok (s.tblRead .reflected i))

/-- STEP8D (R89). -/
def execStep8d (w : Word) (s : State) : Host.Outcome State Fault Refusal := .next (s.respond .ok (step8D w))

/-- STEP8R (R90). -/
def execStep8r (w : Word) (s : State) : Host.Outcome State Fault Refusal := .next (s.respond .ok (step8R w))

end Sys2Proof.Machine
end

