-- ==== Sys2Proof/Machine/Reversal.lean ====
section
/-! DEFINITION. The meanings of REV8 and REV16 (43_reversal.md). -/

namespace Sys2Proof.Machine

open Sys2Proof

/-- REV8 (R132): the reversed byte in the low byte, the high byte 0. -/
def execRev8 (x : Byte) (s : State) : Host.Outcome State Fault Refusal := .next (s.respond .ok (zext16 (rev8 x)))

/-- REV16 (R133). -/
def execRev16 (w : Word) (s : State) : Host.Outcome State Fault Refusal := .next (s.respond .ok (rev16 w))

end Sys2Proof.Machine
end

