-- ==== Sys2Proof/Machine/Dispatch.lean ====
section
/-! DEFINITION. The dispatch: one arm per command of the opcode map (30_encoding.md R63). -/

namespace Sys2Proof.Machine

open Sys2Proof

def exec (i : Instr) (s : State) : Host.Outcome State Fault Refusal :=
  match i with
  | .nop => Sys2Proof.Machine.execNop s
  | .startDbs c => Sys2Proof.Machine.execStartDbs c s
  | .startDtb c => Sys2Proof.Machine.execStartDtb c s
  | .startRbs c => Sys2Proof.Machine.execStartRbs c s
  | .startRtb c => Sys2Proof.Machine.execStartRtb c s
  | .startArc c => Sys2Proof.Machine.execStartArc c s
  | .feed c b => Sys2Proof.Machine.execFeed c b s
  | .finish c => Sys2Proof.Machine.execFinish c s
  | .stat => Sys2Proof.Machine.execStat s
  | .tblrdD i' => Sys2Proof.Machine.execTblrdD i' s
  | .tblrdR i' => Sys2Proof.Machine.execTblrdR i' s
  | .step8d w => Sys2Proof.Machine.execStep8d w s
  | .step8r w => Sys2Proof.Machine.execStep8r w s
  | .rev8 x => Sys2Proof.Machine.execRev8 x s
  | .rev16 w => Sys2Proof.Machine.execRev16 w s

end Sys2Proof.Machine
end

