-- ==== Sys2Proof/Machine/Fetch.lean ====
section
/-! DEFINITION. What the core does when it moves: it holds in reset, builds its tables, completes the command in flight,
or accepts the next one (10_state.md R36, 70_reset_and_hazards.md R180 to R188). -/

namespace Sys2Proof.Machine

open Sys2Proof

/-- Complete the command word `w`: a word that selects no row raises E_RESERVED (R64, R161), any other runs. -/
def runWord (w : Cmd) (s : State) : Host.Outcome State Fault Refusal :=
  match decode w with
  | .error _ => .next (s.raise .reserved)
  | .ok i => exec i s

/-- The core's move. While `rst` is asserted it stays reset (R180); while not built, the builder moves (R181) and no command
is accepted (R182); then it completes the command in flight as one atomic step (R12, R49), or accepts the next (R36). With
nothing to do it idles (R176), and with a full queue it waits, for good if the host never takes (R188): the state
stays. That a waiting core steps to itself, where I12 says there is no step, is a DESIGN CHOICE (log 19). -/
def coreMove (s : State) : Host.Outcome State Fault Refusal :=
  if s.inReset then .next s.clearByReset
  else if s.built then
    match s.inFlight with
    | some w => runWord w { s with inFlight := none }
    | none => .next s.acceptCmd
  else .next s.buildStep

/-- The host's move on the response port; while `rst` is asserted nothing is transferred, and the core stays reset
(R180). -/
def takeMove (s : State) : State := if s.inReset then s.clearByReset else s.takeRsp

/-- The turn `t` is made. -/
def takeTurn (t : Turn) (s : State) : Host.Outcome State Fault Refusal :=
  match t with
  | .core => coreMove s
  | .offer w => .next (s.offerCmd w)
  | .take => .next (takeMove s)
  | .rst level => .next (s.driveReset level)

/-- `s` with the word `w` accepted and in flight, in a core that is out of reset and built, with the core to move: the
next step completes `w` (log 1). -/
def State.loadWord (s : State) (w : Cmd) : State :=
  { s with rst := !s.cfg.rstActive, built := true, inFlight := some w, turns := [] }

end Sys2Proof.Machine
end

