-- ==== Sys2Proof/Machine/Step.lean ====
section
/-! DEFINITION. One step: the next turn of the schedule is made, and where the schedule is empty the core moves (log 6). -/

namespace Sys2Proof.Machine

open Sys2Proof

/-- One step of the machine. -/
def step (s : State) : Host.Outcome State Fault Refusal :=
  match s.turns with
  | [] => coreMove s
  | t :: rest => takeTurn t { s with turns := rest }

/-- `s` with the instruction whose bits are `w` stored where `step` reads its next command: in flight (log 1). The core
has one instruction length, 32 bits (R68), so the bits above `nbits` are 0. -/
def State.withFetchWord (s : State) (nbits w : Nat) : State := s.loadWord (BitVec.ofNat 32 (w % 2 ^ nbits))

end Sys2Proof.Machine
end

