-- ==== Sys2Proof/Machine/Asm.lean ====
section
/-! DEFINITION. The assembler syntax and the pseudo-instructions of 30_encoding.md R69 and R70: what words a line stands
for, reading a line of text, and the disassembler. No part of the machine; a host's notation for its command stream. -/

namespace Sys2Proof.Machine

open Sys2Proof

/-- A line: a command, the unchecked word line, or a pseudo-instruction (R69, R70). -/
inductive AsmLine where
  | command (i : Instr)
  | word (n : Cmd)
  | feeds (c : Nat) (bytes : List Byte)
  | crc (c : Nat) (v : Variant) (bytes : List Byte)
deriving DecidableEq, Repr

/-- `FEEDS chN, b0, ..., bk`: one FEED per byte, in order (R70). -/
def feedsExpansion (c : Nat) (bytes : List Byte) : List Instr := bytes.map (Instr.feed c)

/-- `CRC chN, V, operands`: START, the FEEDs, FINISH (R70). -/
def crcExpansion (c : Nat) (v : Variant) (bytes : List Byte) : List Instr :=
  Instr.start v c :: (feedsExpansion c bytes ++ [.finish c])

/-- The words a line stands for (R69, R70). -/
def AsmLine.words : AsmLine → List Cmd
  | .command i => [encode i]
  | .word n => [n]
  | .feeds c bytes => (feedsExpansion c bytes).map encode
  | .crc c v bytes => (crcExpansion c v bytes).map encode

/-- A token of a line. -/
inductive Token where
  | name (cs : List Char)
  | comma
  | text (cs : List Char)
deriving DecidableEq, Repr

/-- The name collected so far, in reading order, in front of the tokens after it. -/
def flushName (rev : List Char) (rest : List Token) : List Token :=
  if rev.isEmpty then rest else .name rev.reverse :: rest

/-- Cut a line into names (in capitals), commas and quoted text. The third argument holds the quoted text begun, in reverse.
DESIGN CHOICES (log 16), R69 and R70 being silent: the case of names, what white space is, and that quoted text has no
escape: the next `"` always ends it, and a backslash is the plain byte 0x5C. -/
def tokens : List Char → List Char → Option (List Char) → Option (List Token)
  | [], name, none => some (flushName name [])
  | [], _, some _ => none
  | ch :: rest, name, some txt =>
    if ch = '"' then (tokens rest name none).map (.text txt.reverse :: ·) else tokens rest name (some (ch :: txt))
  | ch :: rest, name, none =>
    if ch = '"' then (tokens rest [] (some [])).map (flushName name)
    else if ch = ',' then (tokens rest [] none).map fun ts => flushName name (.comma :: ts)
    else if ch.isWhitespace then (tokens rest [] none).map (flushName name)
    else tokens rest (ch.toUpper :: name) none

/-- The value of a digit in base `base`. -/
def digitValue (base : Nat) (ch : Char) : Option Nat :=
  let n := ch.toNat
  let d := if 48 ≤ n ∧ n ≤ 57 then n - 48 else if 65 ≤ n ∧ n ≤ 70 then n - 55 else base
  if d < base then some d else none

/-- The value of digits in base `base`, at least one; no sign and no separator between digits (DESIGN CHOICE, log 16). -/
def digitsValue (base : Nat) : List Char → Option Nat
  | [] => none
  | cs => cs.foldl (fun acc ch => acc.bind fun a => (digitValue base ch).map (a * base + ·)) (some 0)

/-- A number: decimal, `0x` hexadecimal or `0b` binary (R69), its letters in capitals. -/
def numberValue : List Char → Option Nat
  | '0' :: 'X' :: ds => digitsValue 16 ds
  | '0' :: 'B' :: ds => digitsValue 2 ds
  | ds => digitsValue 10 ds

/-- A number in the range below `limit`, else the assembler refuses the line (R69). -/
def numberBelow (limit : Nat) (cs : List Char) : Option Nat :=
  match numberValue cs with
  | some n => if n < limit then some n else none
  | none => none

/-- `chN` with `N` in 0 to 15 (R69). That `N` is written in decimal digits only, leading zeros allowed, is a DESIGN CHOICE
(log 16): `ch0xF` is refused. -/
def channelOperand : List Char → Option Nat
  | 'C' :: 'H' :: ds => (digitsValue 10 ds).bind fun n => if n < Config.maxChannels then some n else none
  | _ => none

/-- A byte operand (R69). -/
def byteOperand (cs : List Char) : Option Byte := (numberBelow 256 cs).map (BitVec.ofNat 8)

/-- A word operand (R69). -/
def wordOperand (cs : List Char) : Option Word := (numberBelow 65536 cs).map (BitVec.ofNat 16)

/-- A variant name (R69). -/
def variantOperand (cs : List Char) : Option Variant :=
  if cs = ['D', 'B', 'S'] then some .dbs
  else if cs = ['D', 'T', 'B'] then some .dtb
  else if cs = ['R', 'B', 'S'] then some .rbs
  else if cs = ['R', 'T', 'B'] then some .rtb
  else if cs = ['A', 'R', 'C'] then some .arc
  else none

/-- The bytes of ASCII text, in order (R70). That text with a character outside ASCII is refused, and that the empty text is
no bytes, is a DESIGN CHOICE (log 16). -/
def textBytes : List Char → Option (List Byte)
  | [] => some []
  | ch :: rest => if ch.toNat < 128 then (textBytes rest).map (BitVec.ofNat 8 ch.toNat :: ·) else none

/-- Bytes separated by commas, at least one (a DESIGN CHOICE, log 16: R70 shows none without). -/
def byteList : List Token → Option (List Byte)
  | [.name cs] => (byteOperand cs).map ([·])
  | .name cs :: .comma :: rest => (byteOperand cs).bind fun b => (byteList rest).map (b :: ·)
  | _ => none

/-- The operands of FEEDS: bytes, or one quoted text (R70). -/
def bytesOperand : List Token → Option (List Byte)
  | [.text cs] => textBytes cs
  | ts => byteList ts

/-- A line whose first name is `m` and whose other tokens are `ts` (R69, R70). That `.word n` is refused where `n` does not
fit 32 bits is a DESIGN CHOICE (log 16). -/
def lineOf (m : List Char) (ts : List Token) : Option AsmLine :=
  if m = ['N', 'O', 'P'] ∧ ts = [] then some (.command .nop)
  else if m = ['S', 'T', 'A', 'T'] ∧ ts = [] then some (.command .stat)
  else if m = ['S', 'T', 'A', 'R', 'T'] then
    match ts with
    | [.name c, .comma, .name v] => (channelOperand c).bind fun n => (variantOperand v).map fun x => .command (.start x n)
    | _ => none
  else if m = ['F', 'E', 'E', 'D'] then
    match ts with
    | [.name c, .comma, .name b] => (channelOperand c).bind fun n => (byteOperand b).map fun x => .command (.feed n x)
    | _ => none
  else if m = ['F', 'I', 'N', 'I', 'S', 'H'] then
    match ts with
    | [.name c] => (channelOperand c).map fun n => .command (.finish n)
    | _ => none
  else if m = ['T', 'B', 'L', 'R', 'D'] then
    match ts with
    | [.name t, .comma, .name i] =>
      if t = ['D', 'I', 'R'] then (byteOperand i).map fun x => .command (.tblrdD x)
      else if t = ['R', 'E', 'F'] then (byteOperand i).map fun x => .command (.tblrdR x)
      else none
    | _ => none
  else if m = ['S', 'T', 'E', 'P', '8', 'D'] then
    match ts with
    | [.name w] => (wordOperand w).map fun x => .command (.step8d x)
    | _ => none
  else if m = ['S', 'T', 'E', 'P', '8', 'R'] then
    match ts with
    | [.name w] => (wordOperand w).map fun x => .command (.step8r x)
    | _ => none
  else if m = ['R', 'E', 'V', '8'] then
    match ts with
    | [.name b] => (byteOperand b).map fun x => .command (.rev8 x)
    | _ => none
  else if m = ['R', 'E', 'V', '1', '6'] then
    match ts with
    | [.name w] => (wordOperand w).map fun x => .command (.rev16 x)
    | _ => none
  else if m = ['.', 'W', 'O', 'R', 'D'] then
    match ts with
    | [.name n] => (numberBelow (2 ^ 32) n).map fun x => .word (BitVec.ofNat 32 x)
    | _ => none
  else if m = ['F', 'E', 'E', 'D', 'S'] then
    match ts with
    | .name c :: .comma :: rest => (channelOperand c).bind fun n => (bytesOperand rest).map fun bs => .feeds n bs
    | _ => none
  else if m = ['C', 'R', 'C'] then
    match ts with
    | [.name c, .comma, .name v] => (channelOperand c).bind fun n => (variantOperand v).map fun x => .crc n x []
    | .name c :: .comma :: .name v :: .comma :: rest =>
      (channelOperand c).bind fun n => (variantOperand v).bind fun x => (bytesOperand rest).map fun bs => .crc n x bs
    | _ => none
  else none

/-- Read one line of assembler text; none where the assembler refuses it (R69). -/
def parseLine (cs : List Char) : Option AsmLine :=
  match tokens cs [] none with
  | some (.name m :: ts) => lineOf m ts
  | _ => none

/-- The words of one line of text. -/
def assembleLine (line : String) : Option (List Cmd) := (parseLine line.toList).map AsmLine.words

/-- A hexadecimal digit, in capitals. -/
def hexDigit (n : BitVec 4) : Char :=
  if n.toNat < 10 then Char.ofNat (48 + n.toNat) else Char.ofNat (55 + n.toNat)

/-- `n` hexadecimal digits of a word, most significant first, after `0x`. -/
def hexText (n : Nat) (w : Cmd) : List Char :=
  '0' :: 'x' :: (List.range n).map fun k => hexDigit (w.extractLsb' (4 * (n - 1 - k)) 4)

/-- `chN`. -/
def channelText (c : Nat) : List Char :=
  'c' :: 'h' :: (if c < 10 then [Char.ofNat (48 + c)] else ['1', Char.ofNat (48 + (c - 10))])

/-- The text of a variant. -/
def variantText : Variant → List Char
  | .dbs => ['D', 'B', 'S']
  | .dtb => ['D', 'T', 'B']
  | .rbs => ['R', 'B', 'S']
  | .rtb => ['R', 'T', 'B']
  | .arc => ['A', 'R', 'C']

/-- The text of a START command. -/
def startText (c : Nat) (v : Variant) : List Char :=
  ['S', 'T', 'A', 'R', 'T', ' '] ++ channelText c ++ [',', ' '] ++ variantText v

/-- The text of a command (R69). -/
def commandText : Instr → List Char
  | .nop => ['N', 'O', 'P']
  | .startDbs c => startText c .dbs
  | .startDtb c => startText c .dtb
  | .startRbs c => startText c .rbs
  | .startRtb c => startText c .rtb
  | .startArc c => startText c .arc
  | .feed c b => ['F', 'E', 'E', 'D', ' '] ++ channelText c ++ [',', ' '] ++ hexText 2 (b.zeroExtend 32)
  | .finish c => ['F', 'I', 'N', 'I', 'S', 'H', ' '] ++ channelText c
  | .stat => ['S', 'T', 'A', 'T']
  | .tblrdD i => ['T', 'B', 'L', 'R', 'D', ' ', 'D', 'I', 'R', ',', ' '] ++ hexText 2 (i.zeroExtend 32)
  | .tblrdR i => ['T', 'B', 'L', 'R', 'D', ' ', 'R', 'E', 'F', ',', ' '] ++ hexText 2 (i.zeroExtend 32)
  | .step8d w => ['S', 'T', 'E', 'P', '8', 'D', ' '] ++ hexText 4 (w.zeroExtend 32)
  | .step8r w => ['S', 'T', 'E', 'P', '8', 'R', ' '] ++ hexText 4 (w.zeroExtend 32)
  | .rev8 x => ['R', 'E', 'V', '8', ' '] ++ hexText 2 (x.zeroExtend 32)
  | .rev16 w => ['R', 'E', 'V', '1', '6', ' '] ++ hexText 4 (w.zeroExtend 32)

/-- Disassembly: a word that matches no row prints as a `.word` line (R69). -/
def disassemble (w : Cmd) : List Char :=
  match decode w with
  | .ok i => commandText i
  | .error _ => ['.', 'w', 'o', 'r', 'd', ' '] ++ hexText 8 w

end Sys2Proof.Machine
end

