-- ==== Sys2Proof/Safety.lean ====
section
/-! DEFINITION. The terms claims are stated in: the invariant of the core, a core about to complete a command, streams of
commands, and a host that serves them. -/

namespace Sys2Proof.Machine

open Sys2Proof

/-- The invariant every step keeps: the parameters are legal (R8); the responses queued and the one the command in flight
will get fit the queue (R31; that room is kept for the latter is log 7); each table is the beginning, in index order
(log 8), of the table the rules give (R84, R85), and whole once the build status is 1 (R32); before that no call is open, no command is in flight and no response is queued (R180, R182);
and while `rst` is asserted the build status is 0 (R180). -/
structure State.Inv (s : State) : Prop where
  nch_pos : 1 ≤ s.nch
  nch_le : s.nch ≤ Config.maxChannels
  rspq_pos : 1 ≤ s.cfg.rspq
  room : s.queue.length + s.inFlight.toList.length ≤ s.cfg.rspq
  td_len : s.td.length ≤ Config.tblN
  tr_len : s.tr.length ≤ Config.tblN
  td_entries : s.td = builtEntries .direct s.td.length
  tr_entries : s.tr = builtEntries .reflected s.tr.length
  td_built : s.built = true → s.td = builtTable .direct
  tr_built : s.built = true → s.tr = builtTable .reflected
  unbuilt_queue : s.built = false → s.queue = []
  unbuilt_inFlight : s.built = false → s.inFlight = none
  unbuilt_idle : s.built = false → ∀ ch ∈ s.chans, ch = .idle
  reset_unbuilt : s.inReset = true → s.built = false

/-- Both tables hold what the builder writes (R84, R85), as they do in every state of a run with `ready_o = 1`. -/
structure State.TablesBuilt (s : State) : Prop where
  td : s.td = builtTable .direct
  tr : s.tr = builtTable .reflected

/-- Out of reset, built, and the core to move. -/
structure State.Running (s : State) : Prop where
  turns : s.turns = []
  reset : s.inReset = false
  built : s.built = true

/-- Running, with the word `w` in flight: the next step completes `w`. -/
structure State.Completing (s : State) (w : Cmd) : Prop extends s.Running where
  inFlight : s.inFlight = some w

/-- `s` with its command no longer in flight and the response `(e, d)` at the back of the queue: all that an erring
command, or a command that writes no channel, does to the state. -/
def State.answered (s : State) (e : ErrCode) (d : Word) : State :=
  { s with inFlight := none, queue := s.queue ++ [⟨e, d⟩] }

/-- A stream of commands, one after the other, each atomic (R12). -/
def execAll : List Instr → State → Host.Outcome State Fault Refusal
  | [], s => .next s
  | i :: rest, s =>
    match exec i s with
    | .next t => execAll rest t
    | .fault r => .fault r
    | .refused r => .refused r

/-- The bytes a stream feeds to channel `c`, in order (R145). -/
def fedTo (c : Nat) : List Instr → List Byte
  | [] => []
  | .feed c' b :: rest => if c' = c then b :: fedTo c rest else fedTo c rest
  | _ :: rest => fedTo c rest

/-- The command opens or closes a call on channel `c`. -/
def boundsCall (c : Nat) (i : Instr) : Bool :=
  i.channel? == some c && (i.startVariant?.isSome || i == .finish c)

/-- The turns in which a host serves `n` commands one at a time: the core accepts, the core completes, the host takes. -/
def serveTurns : Nat → List Turn
  | 0 => []
  | n + 1 => .core :: .core :: .take :: serveTurns n

/-- The operands of a command are the fields of its word, with no extension, scaling or shifting (R62). -/
def operandsFrom (w : Cmd) : Instr → Prop
  | .nop => True
  | .startDbs c => c = (w.extractLsb' 24 4).toNat
  | .startDtb c => c = (w.extractLsb' 24 4).toNat
  | .startRbs c => c = (w.extractLsb' 24 4).toNat
  | .startRtb c => c = (w.extractLsb' 24 4).toNat
  | .startArc c => c = (w.extractLsb' 24 4).toNat
  | .feed c b => c = (w.extractLsb' 24 4).toNat ∧ b = w.extractLsb' 0 8
  | .finish c => c = (w.extractLsb' 24 4).toNat
  | .stat => True
  | .tblrdD i => i = w.extractLsb' 0 8
  | .tblrdR i => i = w.extractLsb' 0 8
  | .step8d x => x = w.extractLsb' 0 16
  | .step8r x => x = w.extractLsb' 0 16
  | .rev8 x => x = w.extractLsb' 0 8
  | .rev16 x => x = w.extractLsb' 0 16

/-- `OP` of a word (R60). -/
def opOf (w : Cmd) : Nat := (w.extractLsb' 28 4).toNat

/-- `CH` of a word (R60). -/
def chOf (w : Cmd) : Nat := (w.extractLsb' 24 4).toNat

/-- `SEL` of a word (R60). -/
def selOf (w : Cmd) : Nat := (w.extractLsb' 16 8).toNat

/-- `DATA` of a word (R60). -/
def dataOf (w : Cmd) : Nat := (w.extractLsb' 0 16).toNat

/-- `DATA[15:8]` of a word. -/
def dataHighOf (w : Cmd) : Nat := (w.extractLsb' 8 8).toNat

/-- The cases R66 lists: an assigned opcode with a field outside its row. -/
def fieldOutsideRow (w : Cmd) : Prop :=
  (opOf w ∈ [0, 4, 5, 6, 7, 8, 9] ∧ chOf w ≠ 0) ∨ (opOf w ∈ [0, 2, 3, 4, 6, 7, 8, 9] ∧ selOf w ≠ 0) ∨
    (opOf w ∈ [0, 1, 3, 4] ∧ dataOf w ≠ 0) ∨ (opOf w ∈ [2, 5, 8] ∧ dataHighOf w ≠ 0) ∨
    (opOf w = 1 ∧ 5 ≤ selOf w) ∨ (opOf w = 5 ∧ 2 ≤ selOf w)

/-- The mode of an open channel, without its accumulator. -/
def modeOf : Channel → Option Variant
  | .idle => none
  | .opened v _ => some v

/-- The error a word is answered with, by the priority of R165, written over the opcode map of R63 itself: no row, then a
channel the core does not have, then a FEED or FINISH (`OP` 2 or 3) to a closed channel. -/
def expectedError (s : State) (w : Cmd) : ErrCode :=
  if ¬ opcodeRows.any (fun r => r.selects w) then .reserved
  else if opOf w ∈ [1, 2, 3] ∧ s.nch ≤ chOf w then .channel
  else if opOf w ∈ [2, 3] ∧ ¬ s.isOpen (chOf w) then .notOpen
  else .ok

end Sys2Proof.Machine
end

