-- ==== Sys2Proof/Certificates/Slice0/Obligations.lean ====
section
/-! DEFINITION. The statements about the CRC16 core, for the provers: encoding, the datapath, the commands, calls, errors,
reset, the ports and the whole machine. Each docstring names the rule of the spec it states or rests on. -/

open Sys2Proof Sys2Proof.Machine

/-! ## Encoding (30_encoding.md) -/

/-- One word of every row of R63, written out from its columns, decodes to the command of that row. -/
def Obligations.OneWordOfEveryRowDecodes : Prop :=
  decode 0x00000000#32 = .ok .nop ∧ decode 0x13000000#32 = .ok (.startDbs 3) ∧ decode 0x1F010000#32 = .ok (.startDtb 15) ∧
    decode 0x10020000#32 = .ok (.startRbs 0) ∧ decode 0x18030000#32 = .ok (.startRtb 8) ∧
    decode 0x11040000#32 = .ok (.startArc 1) ∧ decode 0x2A0000C5#32 = .ok (.feed 10 0xC5#8) ∧
    decode 0x34000000#32 = .ok (.finish 4) ∧ decode 0x40000000#32 = .ok .stat ∧
    decode 0x5000007F#32 = .ok (.tblrdD 0x7F#8) ∧ decode 0x50010080#32 = .ok (.tblrdR 0x80#8) ∧
    decode 0x60001234#32 = .ok (.step8d 0x1234#16) ∧ decode 0x7000A001#32 = .ok (.step8r 0xA001#16) ∧
    decode 0x800000B0#32 = .ok (.rev8 0xB0#8) ∧ decode 0x90008005#32 = .ok (.rev16 0x8005#16)

/-- Every well-formed command, with every operand, survives encoding and decoding. -/
def Obligations.DecodeInvertsEncode : Prop :=
  ∀ i : Instr, i.WellFormed → decode (encode i) = .ok i

/-- Every word that decodes is the encoding of what it decodes to, and that command is well-formed: one command, one word. -/
def Obligations.EncodeInvertsDecode : Prop :=
  ∀ (w : Cmd) (i : Instr), decode w = .ok i → i.WellFormed ∧ encode i = w

/-- R62 and R63: the opcode map's masks and matches; a word decodes to the row with `(cmd & mask) = match`, its operands
the fields of the word, and to nothing where no row matches; no two rows match one word. -/
def Obligations.WordSelectsTheRowOfTheOpcodeMap : Prop :=
  opcodeRows = [⟨0xFFFFFFFF#32, 0x00000000#32⟩, ⟨0xF0FFFFFF#32, 0x10000000#32⟩, ⟨0xF0FFFFFF#32, 0x10010000#32⟩,
      ⟨0xF0FFFFFF#32, 0x10020000#32⟩, ⟨0xF0FFFFFF#32, 0x10030000#32⟩, ⟨0xF0FFFFFF#32, 0x10040000#32⟩,
      ⟨0xF0FFFF00#32, 0x20000000#32⟩, ⟨0xF0FFFFFF#32, 0x30000000#32⟩, ⟨0xFFFFFFFF#32, 0x40000000#32⟩,
      ⟨0xFFFFFF00#32, 0x50000000#32⟩, ⟨0xFFFFFF00#32, 0x50010000#32⟩, ⟨0xFFFF0000#32, 0x60000000#32⟩,
      ⟨0xFFFF0000#32, 0x70000000#32⟩, ⟨0xFFFFFF00#32, 0x80000000#32⟩, ⟨0xFFFF0000#32, 0x90000000#32⟩] ∧
    (∀ (w : Cmd) (i : Instr), decode w = .ok i →
      i.row ∈ opcodeRows ∧ i.row.selects w = true ∧ operandsFrom w i) ∧
    (∀ (w : Cmd) (e : DecodeError), decode w = .error e → ∀ r ∈ opcodeRows, r.selects w = false) ∧
    ∀ (w : Cmd) (r q : OpcodeRow), r ∈ opcodeRows → q ∈ opcodeRows → r.selects w = true → q.selects w = true → r = q

/-- R64: decoding checks the row, then the channel of START, FEED and FINISH against `NCH`, and answers on every word. -/
def Obligations.DecodingChecksTheRowThenTheChannel : Prop :=
  ∀ (nch : Nat) (w : Cmd),
    ((∀ r ∈ opcodeRows, r.selects w = false) → decodeCommand nch w = .error .reserved) ∧
    ((∃ r ∈ opcodeRows, r.selects w = true) → opOf w ∈ [1, 2, 3] → nch ≤ chOf w →
      decodeCommand nch w = .error .channel) ∧
    ((∃ r ∈ opcodeRows, r.selects w = true) → ¬ (opOf w ∈ [1, 2, 3] ∧ nch ≤ chOf w) →
      ∃ i, decodeCommand nch w = .ok i ∧ i.row.selects w = true ∧ operandsFrom w i)

/-- R65, R66 and R161: completing a word with a reserved opcode, or with a field outside its opcode's rows, answers
`(E_RESERVED, 0)` and changes nothing; every other word decodes. -/
def Obligations.ReservedWordsRaiseReserved : Prop :=
  (∀ (s : State) (w : Cmd), s.Completing w → 10 ≤ opOf w ∨ fieldOutsideRow w →
      step s = .next (s.answered .reserved 0#16)) ∧
    ∀ w : Cmd, opOf w < 10 → ¬ fieldOutsideRow w → ∃ i, decode w = .ok i

/-- R165 with the causes of R160 and R162: the response to any word carries the first error that applies in the order
E_RESERVED, E_CHANNEL, E_NOT_OPEN, with `RDATA = 0` for every error. -/
def Obligations.FirstApplicableErrorIsReported : Prop :=
  (ErrCode.ok.code = 0#2 ∧ ErrCode.reserved.code = 1#2 ∧ ErrCode.channel.code = 2#2 ∧ ErrCode.notOpen.code = 3#2) ∧
    (∀ (s : State) (w : Cmd), s.Completing w → ∃ t d, step s = .next t ∧
      t.queue = s.queue ++ [⟨expectedError s w, d⟩] ∧ (expectedError s w ≠ .ok → d = 0#16)) ∧
    ∀ (s : State) (w : Cmd), s.nch = 16 → expectedError s w ≠ .channel

/-- R69's disassembly: the line printed for any word, a command's or a `.word` line, reads back as that one word. The printed
forms beyond R69's table are the model's choice (log 16). -/
def Obligations.DisassembledLineReadsBack : Prop :=
  ∀ w : Cmd, (parseLine (disassemble w)).map AsmLine.words = some [w]

/-! ## The datapath and the tables (40_datapath.md) -/

/-- R82: the eight-step loops compute the parallel XOR network the spec tabulates. -/
def Obligations.LoopsEqualTheXorNetwork : Prop :=
  ∀ a : Word, step8D a = networkD a ∧ step8R a = networkR a

/-- R82: both loops are linear over GF(2). -/
def Obligations.LoopsAreLinear : Prop :=
  ∀ a b : Word, step8D (a ^^^ b) = step8D a ^^^ step8D b ∧ step8R (a ^^^ b) = step8R a ^^^ step8R b

/-- R82: the reflected loop is the direct loop between two reversals. -/
def Obligations.ReflectedLoopIsTheReversedDirectLoop : Prop :=
  ∀ a : Word, step8R a = rev16 (step8D (rev16 a))

/-- R87: each loop is an 8-bit shift XOR one table entry. -/
def Obligations.LoopsSplitIntoShiftAndTableEntry : Prop :=
  ∀ x : Word, step8D x = (x <<< 8) ^^^ tdEntry (highByte x) ∧ step8R x = (x >>> 8) ^^^ trEntry (lowByte x)

/-- R84 and R85: in every state of the invariant with `ready_o = 1`, each table has 256 entries and entry `i` is the loop's
remainder for `i`. -/
def Obligations.BuiltTablesHoldTheLoopRemainders : Prop :=
  ∀ s : State, s.Inv → s.readyO = true → s.td.length = 256 ∧ s.tr.length = 256 ∧
    ∀ i : Byte, s.tblRead .direct i = step8D (zext16 i <<< 8) ∧ s.tblRead .reflected i = step8R (zext16 i)

/-- R42: no command writes a table, and a step changes a table only while the builder runs or in reset. -/
def Obligations.NoCommandWritesATable : Prop :=
  (∀ (i : Instr) (s t : State), exec i s = .next t → ∀ (sel : TableSel) (k : Byte), t.tblRead sel k = s.tblRead sel k) ∧
    ∀ s t : State, step s = .next t → s.readyO = true → t.readyO = true →
      ∀ (sel : TableSel) (k : Byte), t.tblRead sel k = s.tblRead sel k

/-- R88, TBLRD.D and TBLRD.R: encoding, the response, the state left as it was, the reserved words, the corner cases. -/
def Obligations.TblrdAnswersTheTableEntry : Prop :=
  (∀ i : Byte, encode (.tblrdD i) = 0x50000000#32 ||| i.zeroExtend 32 ∧
      encode (.tblrdR i) = 0x50010000#32 ||| i.zeroExtend 32) ∧
    (∀ (i : Byte) (s : State),
      exec (.tblrdD i) s = .next { s with queue := s.queue ++ [⟨.ok, s.tblRead .direct i⟩] } ∧
      exec (.tblrdR i) s = .next { s with queue := s.queue ++ [⟨.ok, s.tblRead .reflected i⟩] }) ∧
    (∀ (i : Byte) (s : State), s.TablesBuilt →
      exec (.tblrdD i) s = .next { s with queue := s.queue ++ [⟨.ok, step8D (zext16 i <<< 8)⟩] } ∧
      exec (.tblrdR i) s = .next { s with queue := s.queue ++ [⟨.ok, step8R (zext16 i)⟩] }) ∧
    (∀ (w : Cmd) (s : State), s.Completing w → opOf w = 5 → chOf w ≠ 0 ∨ 1 < selOf w ∨ dataHighOf w ≠ 0 →
      step s = .next (s.answered .reserved 0#16)) ∧
    (∀ w : Cmd, opOf w = 5 → chOf w = 0 → dataHighOf w = 0 →
      (selOf w = 0 → decode w = .ok (.tblrdD (w.extractLsb' 0 8))) ∧
      (selOf w = 1 → decode w = .ok (.tblrdR (w.extractLsb' 0 8)))) ∧
    tdEntry 0#8 = 0#16 ∧ trEntry 0#8 = 0#16

/-- R89, STEP8D: encoding, the response, the state left as it was, the reserved words, the corner cases. -/
def Obligations.Step8dAnswersTheDirectLoop : Prop :=
  (∀ w : Word, encode (.step8d w) = 0x60000000#32 ||| w.zeroExtend 32) ∧
    (∀ (w : Word) (s : State), exec (.step8d w) s = .next { s with queue := s.queue ++ [⟨.ok, step8D w⟩] }) ∧
    (∀ (w : Cmd) (s : State), s.Completing w → opOf w = 6 → chOf w ≠ 0 ∨ selOf w ≠ 0 →
      step s = .next (s.answered .reserved 0#16)) ∧
    (∀ w : Cmd, opOf w = 6 → chOf w = 0 → selOf w = 0 → decode w = .ok (.step8d (w.extractLsb' 0 16))) ∧
    step8D 0#16 = 0#16 ∧ step8D 0x8000#16 = 0x8303#16 ∧ step8D 0xFFFF#16 = 0xFD02#16 ∧
    ∀ w : Word, w.toNat < 0x100 → step8D w = w <<< 8

/-- R90, STEP8R: encoding, the response, the state left as it was, the reserved words, the corner cases. -/
def Obligations.Step8rAnswersTheReflectedLoop : Prop :=
  (∀ w : Word, encode (.step8r w) = 0x70000000#32 ||| w.zeroExtend 32) ∧
    (∀ (w : Word) (s : State), exec (.step8r w) s = .next { s with queue := s.queue ++ [⟨.ok, step8R w⟩] }) ∧
    (∀ (w : Cmd) (s : State), s.Completing w → opOf w = 7 → chOf w ≠ 0 ∨ selOf w ≠ 0 →
      step s = .next (s.answered .reserved 0#16)) ∧
    (∀ w : Cmd, opOf w = 7 → chOf w = 0 → selOf w = 0 → decode w = .ok (.step8r (w.extractLsb' 0 16))) ∧
    step8R 0#16 = 0#16 ∧ step8R 0x0001#16 = 0xC0C1#16 ∧ step8R 0xFFFF#16 = 0x40BF#16 ∧
    ∀ w : Word, lowByte w = 0#8 → step8R w = w >>> 8

/-- R91: the tables are linear in their index, and the entries the rule names. -/
def Obligations.TableEntriesAreLinearInTheIndex : Prop :=
  (∀ i j : Byte, tdEntry (i ^^^ j) = tdEntry i ^^^ tdEntry j ∧ trEntry (i ^^^ j) = trEntry i ^^^ trEntry j) ∧
    tdEntry 1#8 = Config.polyD ∧ trEntry 0x80#8 = Config.polyR ∧ trEntry 1#8 = 0xC0C1#16 ∧
    tdEntry 0xFF#8 = 0x0202#16 ∧ trEntry 0xFF#8 = 0x4040#16

/-! ## The reversal helpers (43_reversal.md) -/

/-- R130 and R131: bit `k` of `rev8 x` is bit `7 - k` of `x`; `rev16` reverses the 16 bits, which is each byte reversed and
the two swapped. -/
def Obligations.ReversalMirrorsTheBits : Prop :=
  (∀ (x : Byte) (k : Nat), k < 8 → (rev8 x).getLsbD k = x.getLsbD (7 - k)) ∧
    ∀ w : Word, (∀ k : Nat, k < 16 → (rev16 w).getLsbD k = w.getLsbD (15 - k)) ∧
      rev16 w = rev8 (lowByte w) ++ rev8 (highByte w)

/-- R135: both reversals are involutions. -/
def Obligations.ReversalsAreInvolutions : Prop :=
  (∀ x : Byte, rev8 (rev8 x) = x) ∧ ∀ w : Word, rev16 (rev16 w) = w

/-- R134: the two polynomials are each other's reversal. -/
def Obligations.PolynomialsArePairedByReversal : Prop :=
  Config.polyR = rev16 Config.polyD

/-- R132, REV8: encoding, the response, the state left as it was, the reserved words, the corner cases. -/
def Obligations.Rev8AnswersTheReversedByte : Prop :=
  (∀ x : Byte, encode (.rev8 x) = 0x80000000#32 ||| x.zeroExtend 32) ∧
    (∀ (x : Byte) (s : State), ∃ d : Word, exec (.rev8 x) s = .next { s with queue := s.queue ++ [⟨.ok, d⟩] } ∧
      d.toNat < 0x100 ∧ ∀ k < 8, d.getLsbD k = x.getLsbD (7 - k)) ∧
    (∀ (w : Cmd) (s : State), s.Completing w → opOf w = 8 → chOf w ≠ 0 ∨ selOf w ≠ 0 ∨ dataHighOf w ≠ 0 →
      step s = .next (s.answered .reserved 0#16)) ∧
    (∀ w : Cmd, opOf w = 8 → chOf w = 0 → selOf w = 0 → dataHighOf w = 0 →
      decode w = .ok (.rev8 (w.extractLsb' 0 8))) ∧
    rev8 0x00#8 = 0x00#8 ∧ rev8 0xFF#8 = 0xFF#8 ∧ rev8 0x01#8 = 0x80#8

/-- R133, REV16: encoding, the response, the state left as it was, the reserved words, the corner cases. -/
def Obligations.Rev16AnswersTheReversedWord : Prop :=
  (∀ w : Word, encode (.rev16 w) = 0x90000000#32 ||| w.zeroExtend 32) ∧
    (∀ (w : Word) (s : State), ∃ d : Word, exec (.rev16 w) s = .next { s with queue := s.queue ++ [⟨.ok, d⟩] } ∧
      ∀ k < 16, d.getLsbD k = w.getLsbD (15 - k)) ∧
    (∀ (w : Cmd) (s : State), s.Completing w → opOf w = 9 → chOf w ≠ 0 ∨ selOf w ≠ 0 →
      step s = .next (s.answered .reserved 0#16)) ∧
    (∀ w : Cmd, opOf w = 9 → chOf w = 0 → selOf w = 0 → decode w = .ok (.rev16 (w.extractLsb' 0 16))) ∧
    rev16 0x0000#16 = 0x0000#16 ∧ rev16 0xFFFF#16 = 0xFFFF#16 ∧ rev16 0x0001#16 = 0x8000#16 ∧
    rev16 0x00FF#16 = 0xFF00#16

/-! ## The checksum functions (41_bit_serial.md, 42_table_driven.md) -/

/-- R143: `init(v)`, `upd(v)` and `xorout(v)` of every variant, the tables being the built ones. -/
def Obligations.VariantFunctionsFollowTheTable : Prop :=
  (∀ v : Variant, initOf v = 0x0000#16 ∧ xoroutOf v = 0x0000#16) ∧ initOf .arc = Config.arcInit ∧
    xoroutOf .arc = Config.arcXorout ∧
    ∀ (a : Word) (b : Byte),
      updOf tdEntry trEntry .dbs a b = step8D (a ^^^ (zext16 b <<< 8)) ∧
      updOf tdEntry trEntry .dtb a b = (a <<< 8) ^^^ tdEntry (highByte a ^^^ b) ∧
      updOf tdEntry trEntry .rbs a b = step8R (a ^^^ zext16 b) ∧
      updOf tdEntry trEntry .rtb a b = (a >>> 8) ^^^ trEntry (lowByte a ^^^ b) ∧
      updOf tdEntry trEntry .arc a b = updOf tdEntry trEntry .rtb a b

/-- R118: on every accumulator and byte, the bit-serial and the table-driven update of a family agree. -/
def Obligations.UpdatesOfOneFamilyAgree : Prop :=
  ∀ (a : Word) (b : Byte), updDBS a b = updDTB tdEntry a b ∧ updRBS a b = updRTB trEntry a b

/-- R117: on every byte sequence, the direct variants agree and the three reflected ones agree. -/
def Obligations.VariantsOfOneFamilyAgree : Prop :=
  ∀ d : List Byte, crc .dbs d = crc .dtb d ∧ crc .rbs d = crc .rtb d ∧ crc .rtb d = crc .arc d

/-- R136: the reflected checksum is the reversed direct checksum of the reversed bytes. -/
def Obligations.ReflectedChecksumIsTheReversedDirectOne : Prop :=
  ∀ d : List Byte, crc .rtb d = rev16 (crc .dtb (d.map rev8)) ∧ crc .rbs d = rev16 (crc .dbs (d.map rev8)) ∧
    crc .arc d = rev16 (crc .dtb (d.map rev8))

/-- A corner case R144 asserts, that a zero byte changes every nonzero accumulator. By the update functions it is FALSE:
the direct variants hold 0x8003, the reflected ones 0xC001 (log 17). -/
def Obligations.ZeroByteChangesEveryNonzeroAccumulator : Prop :=
  ∀ (v : Variant) (a : Word), a ≠ 0#16 → updOf tdEntry trEntry v a 0x00#8 ≠ a

/-! ## The commands of a call (44_call_control.md) -/

/-- R141, NOP: encoding, the response, the state left as it was, and every other word with `OP = 0` reserved. -/
def Obligations.NopAnswersAndDoesNothing : Prop :=
  encode .nop = 0x00000000#32 ∧
    (∀ s : State, exec .nop s = .next { s with queue := s.queue ++ [⟨.ok, 0x0000#16⟩] }) ∧
    decode 0x00000000#32 = .ok .nop ∧
    ∀ (w : Cmd) (s : State), s.Completing w → opOf w = 0 → w ≠ 0x00000000#32 →
      step s = .next (s.answered .reserved 0#16)

/-- R142, START.DBS, START.DTB, START.RBS, START.RTB and START.ARC: encoding; the channel opened with the variant and
`init(v)`, whether or not a call was open on it, and nothing else changed; E_CHANNEL and E_RESERVED. -/
def Obligations.StartOpensACall : Prop :=
  ∀ (v : Variant) (c : Nat),
    (c < 16 → encode (Instr.start v c) =
      0x10000000#32 ||| (BitVec.ofNat 32 c <<< 24) ||| (v.code.zeroExtend 32 <<< 16)) ∧
    (∀ s : State, c < s.nch → exec (Instr.start v c) s =
      .next { s with chans := s.chans.set c (.opened v (initOf v)), queue := s.queue ++ [⟨.ok, 0x0000#16⟩] }) ∧
    (∀ s : State, s.nch ≤ c → exec (Instr.start v c) s =
      .next { s with queue := s.queue ++ [⟨.channel, 0x0000#16⟩] }) ∧
    (∀ w : Cmd, opOf w = 1 → selOf w = v.code.toNat → dataOf w = 0 → decode w = .ok (Instr.start v (chOf w))) ∧
    ∀ (w : Cmd) (s : State), s.Completing w → opOf w = 1 → 4 < selOf w ∨ dataOf w ≠ 0 →
      step s = .next (s.answered .reserved 0#16)

/-- R144's pseudocode, FEED: encoding; the accumulator of an open channel updated by its mode and nothing else changed, by
the rules' update functions where the tables are built; E_NOT_OPEN, E_CHANNEL and E_RESERVED. -/
def Obligations.FeedUpdatesTheAccumulator : Prop :=
  (∀ (c : Nat) (b : Byte), c < 16 →
      encode (.feed c b) = 0x20000000#32 ||| (BitVec.ofNat 32 c <<< 24) ||| b.zeroExtend 32) ∧
    (∀ (c : Nat) (b : Byte) (v : Variant) (a : Word) (s : State), s.chan? c = some (.opened v a) →
      exec (.feed c b) s = .next { s with
        chans := s.chans.set c (.opened v (s.upd v a b)), queue := s.queue ++ [⟨.ok, 0x0000#16⟩] }) ∧
    (∀ (c : Nat) (b : Byte) (v : Variant) (a : Word) (s : State), s.chan? c = some (.opened v a) → s.TablesBuilt →
      exec (.feed c b) s = .next { s with
        chans := s.chans.set c (.opened v (updOf tdEntry trEntry v a b)), queue := s.queue ++ [⟨.ok, 0x0000#16⟩] }) ∧
    (∀ (c : Nat) (b : Byte) (s : State), s.chan? c = some .idle →
      exec (.feed c b) s = .next { s with queue := s.queue ++ [⟨.notOpen, 0x0000#16⟩] }) ∧
    (∀ (c : Nat) (b : Byte) (s : State), s.nch ≤ c →
      exec (.feed c b) s = .next { s with queue := s.queue ++ [⟨.channel, 0x0000#16⟩] }) ∧
    (∀ w : Cmd, opOf w = 2 → selOf w = 0 → dataHighOf w = 0 → decode w = .ok (.feed (chOf w) (w.extractLsb' 0 8))) ∧
    ∀ (w : Cmd) (s : State), s.Completing w → opOf w = 2 → selOf w ≠ 0 ∨ dataHighOf w ≠ 0 →
      step s = .next (s.answered .reserved 0#16)

/-- FEED in each of the five modes, the new accumulator written out over the loops and the table rules (R100, R101, R110,
R111, R113). -/
def Obligations.FeedComputesTheModesUpdate : Prop :=
  ∀ (c : Nat) (b : Byte) (a : Word) (s : State), s.TablesBuilt →
    (s.chan? c = some (.opened .dbs a) → ∃ t, exec (.feed c b) s = .next t ∧
      t.chan? c = some (.opened .dbs (step8D (a ^^^ (zext16 b <<< 8))))) ∧
    (s.chan? c = some (.opened .dtb a) → ∃ t, exec (.feed c b) s = .next t ∧
      t.chan? c = some (.opened .dtb ((a <<< 8) ^^^ step8D (zext16 (highByte a ^^^ b) <<< 8)))) ∧
    (s.chan? c = some (.opened .rbs a) → ∃ t, exec (.feed c b) s = .next t ∧
      t.chan? c = some (.opened .rbs (step8R (a ^^^ zext16 b)))) ∧
    (s.chan? c = some (.opened .rtb a) → ∃ t, exec (.feed c b) s = .next t ∧
      t.chan? c = some (.opened .rtb ((a >>> 8) ^^^ step8R (zext16 (lowByte a ^^^ b))))) ∧
    (s.chan? c = some (.opened .arc a) → ∃ t, exec (.feed c b) s = .next t ∧
      t.chan? c = some (.opened .arc ((a >>> 8) ^^^ step8R (zext16 (lowByte a ^^^ b)))))

/-- R146, FINISH: encoding; the checksum answered and the channel closed, nothing else changed; E_NOT_OPEN (a second FINISH
too), E_CHANNEL and E_RESERVED; FINISH right after START answers 0. -/
def Obligations.FinishAnswersTheChecksumAndCloses : Prop :=
  (∀ c : Nat, c < 16 → encode (.finish c) = 0x30000000#32 ||| (BitVec.ofNat 32 c <<< 24)) ∧
    (∀ (c : Nat) (v : Variant) (a : Word) (s : State), s.chan? c = some (.opened v a) →
      exec (.finish c) s =
        .next { s with chans := s.chans.set c .idle, queue := s.queue ++ [⟨.ok, a ^^^ xoroutOf v⟩] }) ∧
    (∀ (c : Nat) (s : State), s.chan? c = some .idle →
      exec (.finish c) s = .next { s with queue := s.queue ++ [⟨.notOpen, 0x0000#16⟩] }) ∧
    (∀ (c : Nat) (s t : State), c < s.nch → exec (.finish c) s = .next t →
      exec (.finish c) t = .next { t with queue := t.queue ++ [⟨.notOpen, 0x0000#16⟩] }) ∧
    (∀ (c : Nat) (s : State), s.nch ≤ c →
      exec (.finish c) s = .next { s with queue := s.queue ++ [⟨.channel, 0x0000#16⟩] }) ∧
    (∀ (c : Nat) (v : Variant) (s t : State), c < s.nch → exec (Instr.start v c) s = .next t →
      exec (.finish c) t =
        .next { t with chans := t.chans.set c .idle, queue := t.queue ++ [⟨.ok, 0x0000#16⟩] }) ∧
    (∀ w : Cmd, opOf w = 3 → selOf w = 0 → dataOf w = 0 → decode w = .ok (.finish (chOf w))) ∧
    ∀ (w : Cmd) (s : State), s.Completing w → opOf w = 3 → selOf w ≠ 0 ∨ dataOf w ≠ 0 →
      step s = .next (s.answered .reserved 0#16)

/-- R148, STAT: encoding; bit `k` of the answer is `OPEN[k]` and the bits from `NCH` up are 0, nothing changed; every other
word with `OP = 4` reserved; 0 after reset. -/
def Obligations.StatAnswersTheOpenMask : Prop :=
  encode .stat = 0x40000000#32 ∧ decode 0x40000000#32 = .ok .stat ∧
    (∀ s : State, ∃ m : Word, exec .stat s = .next { s with queue := s.queue ++ [⟨.ok, m⟩] } ∧
      (∀ k < 16, k < s.nch → m.getLsbD k = s.isOpen k) ∧ ∀ k, s.nch ≤ k → m.getLsbD k = false) ∧
    (∀ (w : Cmd) (s : State), s.Completing w → opOf w = 4 → chOf w ≠ 0 ∨ selOf w ≠ 0 ∨ dataOf w ≠ 0 →
      step s = .next (s.answered .reserved 0#16)) ∧
    ∀ p : Config.Params, exec .stat (State.resetWith p) =
      .next { State.resetWith p with queue := [⟨.ok, 0x0000#16⟩] }

/-- R147 with R140 and R52: a call's FINISH answers the checksum of the bytes fed to its channel, in order, whatever
commands to other channels and channel-free commands are interleaved; each command in between gets one response. -/
def Obligations.InterleavedCallAnswersItsChecksum : Prop :=
  ∀ (v : Variant) (c : Nat) (l : List Instr) (s : State), s.TablesBuilt → c < s.nch →
    (∀ i ∈ l, boundsCall c i = false) →
    ∃ (t : State) (rs : List Response), execAll (Instr.start v c :: (l ++ [.finish c])) s = .next t ∧
      rs.length = l.length + 1 ∧ t.queue = s.queue ++ rs ++ [⟨.ok, crc v (fedTo c l)⟩] ∧ t.chan? c = some .idle

/-- R149: the empty buffer and the single zero byte give 0 in every variant, and two calls of one variant on the same bytes
answer the same, whatever channels they use and whatever else runs. -/
def Obligations.CallsDependOnTheirBytesOnly : Prop :=
  (∀ v : Variant, crc v [] = 0x0000#16 ∧ crc v [0x00#8] = 0x0000#16) ∧
    ∀ (v : Variant) (c c' : Nat) (l l' : List Instr) (s s' : State), s.TablesBuilt → s'.TablesBuilt → c < s.nch →
      c' < s'.nch → (∀ i ∈ l, boundsCall c i = false) → (∀ i ∈ l', boundsCall c' i = false) →
      fedTo c l = fedTo c' l' →
      ∃ (t t' : State) (rs rs' : List Response) (r : Response),
        execAll (Instr.start v c :: (l ++ [.finish c])) s = .next t ∧
        execAll (Instr.start v c' :: (l' ++ [.finish c'])) s' = .next t' ∧
        t.queue = s.queue ++ rs ++ [r] ∧ t'.queue = s'.queue ++ rs' ++ [r] ∧
        rs.length = l.length + 1 ∧ rs'.length = l'.length + 1

/-! ## Channel state (10_state.md, 20_memory.md, 60_exceptions.md) -/

/-- R24: START sets `OPEN`, FINISH and reset clear it, no other command writes it; FEED and FINISH raise E_NOT_OPEN where it
is 0, STAT answers all of it, and no other command's response depends on it. -/
def Obligations.OpenFlagIsSetByStartAndClearedByFinish : Prop :=
  (∀ (i : Instr) (s t : State) (c : Nat), exec i s = .next t → c < s.nch →
      t.isOpen c = if i.channel? = some c ∧ i.startVariant?.isSome then true
        else if i = .finish c then false else s.isOpen c) ∧
    (∀ (s : State) (c : Nat), (s.driveReset s.cfg.rstActive).isOpen c = false) ∧
    (∀ (s : State) (c : Nat) (b : Byte), c < s.nch → s.isOpen c = false →
      exec (.feed c b) s = .next { s with queue := s.queue ++ [⟨.notOpen, 0x0000#16⟩] } ∧
      exec (.finish c) s = .next { s with queue := s.queue ++ [⟨.notOpen, 0x0000#16⟩] }) ∧
    (∀ s : State, ∃ m : Word, exec .stat s = .next { s with queue := s.queue ++ [⟨.ok, m⟩] } ∧
      ∀ k < 16, m.getLsbD k = s.isOpen k) ∧
    ∀ (i : Instr) (s s' : State), i ≠ .stat → (∀ c b, i ≠ .feed c b) → (∀ c, i ≠ .finish c) → s.td = s'.td →
      s.tr = s'.tr → s.nch = s'.nch →
      ∃ (t t' : State) (r : Response), exec i s = .next t ∧ exec i s' = .next t' ∧ t.queue = s.queue ++ [r] ∧
        t'.queue = s'.queue ++ [r]

/-- R51: a command that names channel `c` writes no other channel, and what it answers and leaves in channel `c` depends on
channel `c` and the tables alone; a command that names none writes no channel. -/
def Obligations.CommandsTouchOnlyTheirChannel : Prop :=
  (∀ (i : Instr) (c : Nat) (s t : State), i.channel? = some c → exec i s = .next t →
      ∀ c', c' ≠ c → t.chan? c' = s.chan? c') ∧
    (∀ (i : Instr) (s t : State), i.channel? = none → exec i s = .next t → t.chans = s.chans) ∧
    ∀ (i : Instr) (c : Nat) (s s' : State), i.channel? = some c → s.td = s'.td → s.tr = s'.tr →
      s.chan? c = s'.chan? c →
      ∃ (t t' : State) (r : Response), exec i s = .next t ∧ exec i s' = .next t' ∧ t.queue = s.queue ++ [r] ∧
        t'.queue = s'.queue ++ [r] ∧ t.chan? c = t'.chan? c

/-- R22: no command but FINISH answers anything that depends on an accumulator: from two states that differ in the
accumulators of their open channels only, the responses are the same. -/
def Obligations.AccumulatorsAreReturnedByFinishOnly : Prop :=
  ∀ (i : Instr) (s s' : State), (∀ c, i ≠ .finish c) → s.td = s'.td → s.tr = s'.tr →
    s.chans.map modeOf = s'.chans.map modeOf →
    ∃ (t t' : State) (r : Response), exec i s = .next t ∧ exec i s' = .next t' ∧ t.queue = s.queue ++ [r] ∧
      t'.queue = s'.queue ++ [r] ∧ t.chans.map modeOf = t'.chans.map modeOf

/-- The frame of every command: it answers a next state with one more response at the back of the queue; the parameters, the
reset input, the build status, the tables, the offered words, the schedule and the taken responses stay, and so does every
channel but the one it names, and the number of channels. -/
def Obligations.CommandsKeepTheirFrame : Prop :=
  ∀ (i : Instr) (s : State), ∃ (t : State) (r : Response), exec i s = .next t ∧ t.queue = s.queue ++ [r] ∧
    t.cfg = s.cfg ∧ t.rst = s.rst ∧ t.built = s.built ∧ t.td = s.td ∧ t.tr = s.tr ∧ t.inFlight = s.inFlight ∧
    t.cmds = s.cmds ∧ t.turns = s.turns ∧ t.taken = s.taken ∧ t.nch = s.nch ∧
    ∀ c, i.channel? ≠ some c → t.chan? c = s.chan? c

/-- R164: a command answered with an error leaves the state as it was but for its one response `(ERR, 0x0000)`, and the core
accepts the next command as after any other. -/
def Obligations.ErrorsChangeNoState : Prop :=
  ∀ (s t : State) (w : Cmd) (r : Response), s.Completing w → step s = .next t → t.queue = s.queue ++ [r] →
    t.cmdReadyO = decide (s.queue.length + 1 < s.cfg.rspq) ∧
    (r.err ≠ .ok → r.data = 0x0000#16 ∧ t = { s with inFlight := none, queue := s.queue ++ [r] })

/-! ## Reset, build and ports (10_state.md, 70_reset_and_hazards.md) -/

/-- R34: the state after reset, for every legal choice of the build-time parameters, and the outputs during the build. -/
def Obligations.ResetLeavesTheResetValues : Prop :=
  (∀ p : Config.Params, p.Legal →
      (∀ i : Byte, (State.resetWith p).tblRead .direct i = step8D (zext16 i <<< 8) ∧
        (State.resetWith p).tblRead .reflected i = step8R (zext16 i)) ∧
      (State.resetWith p).nch = p.nch ∧ (∀ c, c < p.nch → (State.resetWith p).chan? c = some .idle) ∧
      (State.resetWith p).queue = [] ∧ (State.resetWith p).readyO = true ∧ (State.resetWith p).cmdReadyO = true ∧
      (State.resetWith p).rspValidO = false) ∧
    (∀ s : State, (s.driveReset s.cfg.rstActive).readyO = false ∧ (s.driveReset s.cfg.rstActive).rspValidO = false) ∧
    ∀ s : State, s.readyO = false → s.cmdReadyO = false

/-- R180: asserting `rst` closes every channel, empties the queue, drops a command in flight without a response and sets the
build status to 0; in every step of a reachable core while `rst` is asserted, its release among them, it stays so. That
the words offered stay offered, and the responses taken stay taken, is the model's reading (log 11). -/
def Obligations.AssertedResetClearsTheCore : Prop :=
  (∀ (s : State) (rest : List Turn), s.turns = .rst s.cfg.rstActive :: rest →
      ∃ t, step s = .next t ∧ t.inReset = true ∧ t.nch = s.nch ∧ (∀ c, c < s.nch → t.chan? c = some .idle) ∧
        t.queue = [] ∧ t.inFlight = none ∧ t.built = false ∧ t.taken = s.taken ∧ t.cmds = s.cmds) ∧
    ∀ s t : State, s.Inv → s.inReset = true → step s = .next t →
      t.nch = s.nch ∧ (∀ c, c < s.nch → t.chan? c = some .idle) ∧ t.queue = [] ∧ t.inFlight = none ∧
        t.built = false ∧ t.taken = s.taken

/-- R181 and R182: while `ready_o = 0` no command is accepted, answered or lost, and with `rst` released the builder reaches
`ready_o = 1`, both tables written by R84 and R85, with the offered words still waiting. -/
def Obligations.CommandsWaitUntilTheTablesAreBuilt : Prop :=
  (∀ s t : State, s.Inv → s.readyO = false → step s = .next t →
      s.cmdReadyO = false ∧ t.inFlight = none ∧ t.queue = [] ∧ t.taken = s.taken ∧ ∃ ws, t.cmds = s.cmds ++ ws) ∧
    ∀ s : State, s.Inv → s.readyO = false → s.inReset = false → s.turns = [] →
      ∃ (k : Nat) (t : State), Host.Core.run Sys2Proof.core k s = .next t ∧ t.readyO = true ∧ t.cmds = s.cmds ∧
        ∀ i : Byte, t.tblRead .direct i = step8D (zext16 i <<< 8) ∧ t.tblRead .reflected i = step8R (zext16 i)

/-- R188: while the response queue holds `RSPQ` responses the core holds `cmd_ready_o = 0`; no step but the host's taking a
response, or a turn of the reset input, changes that; left alone the core stays as it is for good; and the host's taking one
response makes it ready again. That no command is in flight beside a full queue is the model's choice (log 7), and so is
reading the empty schedule as a host that takes nothing (log 6), and letting the stuck core step to itself (log 19). -/
def Obligations.FullQueueHoldsTheCore : Prop :=
  ∀ s : State, s.Inv → s.queue.length = s.cfg.rspq →
    s.cmdReadyO = false ∧
    (∀ t, step s = .next t → s.turns.head? ≠ some .take → (∀ l, s.turns.head? ≠ some (.rst l)) →
      t.queue = s.queue ∧ t.cmdReadyO = false ∧ t.inFlight = none ∧ ∃ ws, t.cmds = s.cmds ++ ws) ∧
    (s.turns = [] → ∀ k : Nat, Host.Core.run Sys2Proof.core k s = .next s) ∧
    ∀ rest : List Turn, ∃ t, step { s with turns := .take :: rest } = .next t ∧ t.cmdReadyO = true

/-- R189: after reset no response of the call is left, and a FEED or FINISH to its channel, until a new START, raises
E_NOT_OPEN. -/
def Obligations.ResetLosesTheCall : Prop :=
  ∀ (s : State) (rest : List Turn) (c : Nat) (b : Byte), s.turns = .rst s.cfg.rstActive :: rest → c < s.nch →
    ∃ t, step s = .next t ∧ t.queue = [] ∧ t.inFlight = none ∧
      ∀ u : State, u.chan? c = t.chan? c →
        exec (.feed c b) u = .next { u with queue := u.queue ++ [⟨.notOpen, 0x0000#16⟩] } ∧
        exec (.finish c) u = .next { u with queue := u.queue ++ [⟨.notOpen, 0x0000#16⟩] }

/-- R37: an accepted command is the first one offered; it gets exactly one response, at the back of the queue; the host takes
from the front; and outside reset no other step touches the responses, so they leave in the order of acceptance. That the
slot of accepted commands holds at most one is the model's choice (log 7). -/
def Obligations.ResponsesLeaveInAcceptanceOrder : Prop :=
  (∀ (s : State) (w : Cmd) (ws : List Cmd), s.Running → s.inFlight = none → s.cmds = w :: ws →
      s.queue.length < s.cfg.rspq → step s = .next { s with cmds := ws, inFlight := some w }) ∧
    (∀ (s : State) (w : Cmd), s.Completing w → ∃ t r, step s = .next t ∧ t.queue = s.queue ++ [r] ∧
      t.inFlight = none ∧ t.taken = s.taken ∧ t.cmds = s.cmds) ∧
    (∀ (s : State) (rest : List Turn) (r : Response) (rs : List Response), s.turns = .take :: rest →
      s.inReset = false → s.queue = r :: rs →
      step s = .next { s with turns := rest, queue := rs, taken := s.taken ++ [r] }) ∧
    ∀ s t : State, step s = .next t → s.inReset = false → t.inReset = false →
      t.taken ++ t.queue = s.taken ++ s.queue ∨
      ∃ (w : Cmd) (r : Response), s.inFlight = some w ∧ t.inFlight = none ∧
        t.taken ++ t.queue = s.taken ++ s.queue ++ [r]

/-- With no work the core idles: `cmd_ready_o = 1`, `rsp_valid_o = 0`, and a step leaves it as it is (R176, R184). That the
idle core still steps, to itself, is the model's choice (log 19). -/
def Obligations.CoreWithoutWorkIdles : Prop :=
  ∀ s : State, s.Inv → s.Running → s.inFlight = none → s.cmds = [] → s.queue = [] →
    s.cmdReadyO = true ∧ s.rspValidO = false ∧ step s = .next s

/-! ## The whole machine -/

/-- A step completes the decoded command: where the core is to move, out of reset and built, with a word in flight that
decodes to `i`, the step is `exec i` with the word no longer in flight; a turn of the core in the schedule does the
same. The in-flight slot is the model's (log 7). -/
def Obligations.StepRunsTheDecodedCommand : Prop :=
  (∀ (s : State) (w : Cmd) (i : Instr), s.Completing w → decode w = .ok i →
      step s = exec i { s with inFlight := none }) ∧
    ∀ (s : State) (rest : List Turn) (w : Cmd) (i : Instr), s.turns = .core :: rest → s.inReset = false →
      s.built = true → s.inFlight = some w → decode w = .ok i →
      step s = exec i { s with turns := rest, inFlight := none }

/-- Storing a well-formed command where the step reads its next word makes the next step run it (the model's choice,
log 1). -/
def Obligations.LoadedCommandRunsNext : Prop :=
  ∀ (s : State) (i : Instr), i.WellFormed →
    step (s.withFetchWord 32 (encode i).toNat) =
      exec i { s with rst := !s.cfg.rstActive, built := true, inFlight := none, turns := [] }

/-- No state of the machine stops: every step answers a next state. Errors, arithmetic and traps stop nothing by R164, R166
and R169, so the fault type is empty (log 15). A core that waits, with no work or with a full queue, steps to itself by the
model's choice (log 19): for the full queue I12 says 'stuck', that there is no step (R188). -/
def Obligations.EveryStepAnswersANextState : Prop :=
  ∀ s : State, ∃ t, step s = .next t

/-- The invariant holds after reset, for every legal choice of the build-time parameters. -/
def Obligations.InvariantHoldsAfterReset : Prop :=
  ∀ p : Config.Params, p.Legal → (State.resetWith p).Inv

/-- Every step keeps the invariant: legal parameters, a queue within its depth, tables that are the beginning of the rules'
tables and whole when ready, nothing in progress before that, and no readiness during reset. That the queue keeps room for
the command in flight is the model's choice (log 7), and so is that the tables are written in index order (log 8). -/
def Obligations.EveryStepKeepsTheInvariant : Prop :=
  ∀ s t : State, s.Inv → step s = .next t → t.Inv

/-- A host that serves its words one at a time gets exactly one response for each, in finitely many steps, and the core is
then empty: no command is lost (R193, R194). The schedule, three turns a word, is the model's choice (log 6 and 7). -/
def Obligations.ServedStreamIsAnsweredWordForWord : Prop :=
  ∀ (s : State), s.Inv → s.inReset = false → s.readyO = true → s.inFlight = none → s.queue = [] →
    s.turns = serveTurns s.cmds.length →
    ∃ (t : State) (rs : List Response), Host.Core.run Sys2Proof.core (3 * s.cmds.length) s = .next t ∧
      rs.length = s.cmds.length ∧ t.taken = s.taken ++ rs ∧ t.cmds = [] ∧ t.queue = [] ∧ t.inFlight = none ∧ t.Inv

/-- End to end through the ports: a host that offers the words of one checksum call (the pseudo-instruction CRC of R70) and
takes every response gets `(0, 0)` for START and each FEED, then `(0, CRC_v(d))` (R140, R147). The schedule that serves it,
and its three turns a word, are the model's choice (log 6 and 7). -/
def Obligations.ServedCallReturnsTheChecksum : Prop :=
  ∀ (s : State) (v : Variant) (c : Nat) (d : List Byte), s.Inv → s.inReset = false → s.readyO = true →
    s.inFlight = none → s.queue = [] → c < s.nch → s.cmds = (AsmLine.crc c v d).words →
    s.turns = serveTurns (d.length + 2) →
    ∃ t : State, Host.Core.run Sys2Proof.core (3 * (d.length + 2)) s = .next t ∧
      t.taken = s.taken ++ List.replicate (d.length + 1) ⟨.ok, 0x0000#16⟩ ++ [⟨.ok, crc v d⟩] ∧
      t.cmds = [] ∧ t.queue = [] ∧ t.chan? c = some .idle
end

