-- ==== Sys2Proof/Laws/Arith.lean ====
section
/-! SUPPORT. Small facts about the shift-XOR steps and the operand helpers (40_datapath.md). -/

namespace Sys2Proof.Machine

open Sys2Proof

theorem rounds_zero (f : Word → Word) (a : Word) : rounds f 0 a = a := rfl

theorem rounds_succ (f : Word → Word) (n : Nat) (a : Word) : rounds f (n + 1) a = rounds f n (f a) := rfl

/-- A step that respects XOR does so any number of times. -/
theorem rounds_xor {f : Word → Word} (hf : ∀ a b, f (a ^^^ b) = f a ^^^ f b) (n : Nat) :
    ∀ a b : Word, rounds f n (a ^^^ b) = rounds f n a ^^^ rounds f n b := by
  induction n with
  | zero => intro a b; rfl
  | succ n ih => intro a b; rw [rounds_succ, rounds_succ, rounds_succ, hf, ih]

theorem xor_left_comm (a b c : Word) : a ^^^ (b ^^^ c) = b ^^^ (a ^^^ c) := by
  rw [← BitVec.xor_assoc, BitVec.xor_comm a b, BitVec.xor_assoc]

theorem xor_cancel_left (a b : Word) : a ^^^ (a ^^^ b) = b := by
  rw [← BitVec.xor_assoc, BitVec.xor_self, BitVec.zero_xor]

/-- One direct step respects XOR (R82). -/
theorem stepD_xor (a b : Word) : stepD (a ^^^ b) = stepD a ^^^ stepD b := by
  have h : (a ^^^ b) <<< 1 = a <<< 1 ^^^ b <<< 1 := by
    refine BitVec.eq_of_getLsbD_eq fun i hi => ?_
    simp only [BitVec.getLsbD_shiftLeft, BitVec.getLsbD_xor]
    cases decide (i < 16) <;> cases decide (i < 1) <;> simp
  simp only [stepD, BitVec.getLsbD_xor, h]
  cases a.getLsbD 15 <;> cases b.getLsbD 15 <;> simp [BitVec.xor_assoc, BitVec.xor_comm, xor_left_comm]

/-- One reflected step respects XOR (R82). -/
theorem stepR_xor (a b : Word) : stepR (a ^^^ b) = stepR a ^^^ stepR b := by
  have h : (a ^^^ b) >>> 1 = a >>> 1 ^^^ b >>> 1 := by
    refine BitVec.eq_of_getLsbD_eq fun i hi => ?_
    simp
  simp only [stepR, BitVec.getLsbD_xor, h]
  cases a.getLsbD 0 <;> cases b.getLsbD 0 <;> simp [BitVec.xor_assoc, BitVec.xor_comm, xor_left_comm]

/-- The bits of a widened byte. -/
@[simp] theorem getLsbD_zext16 (b : Byte) (k : Nat) : (zext16 b).getLsbD k = b.getLsbD k := by
  simp only [zext16, BitVec.getLsbD_setWidth]
  rcases Nat.lt_or_ge k 16 with h | h
  · simp [h]
  · simp [BitVec.getLsbD_of_ge b k (by omega)]

/-- The bits of the high byte. -/
theorem getLsbD_highByte (v : Word) (k : Nat) : (highByte v).getLsbD k = (decide (k < 8) && v.getLsbD (8 + k)) := by
  simp [highByte]

/-- The bits of the low byte. -/
theorem getLsbD_lowByte (v : Word) (k : Nat) : (lowByte v).getLsbD k = (decide (k < 8) && v.getLsbD k) := by
  simp [lowByte]

end Sys2Proof.Machine
end

