-- ==== Sys2Proof/Laws/Decode.lean ====
section
/-! SUPPORT. The fields of a word: taking them out and putting them together are inverse, and what each field of an encoded
command is. -/

namespace Sys2Proof

open Sys2Proof.Machine

/-- Reading the fields of the word with these fields gives them back (R60). -/
@[simp] theorem Fields.ofWord_toWord (f : Fields) : Fields.ofWord f.toWord = f := by
  obtain ⟨op, ch, sel, data⟩ := f
  simp only [Fields.ofWord, Fields.toWord, Fields.mk.injEq]
  refine ⟨?_, ?_, ?_, ?_⟩ <;> refine BitVec.eq_of_getLsbD_eq fun i hi => ?_ <;>
    simp only [BitVec.getLsbD_extractLsb', BitVec.getLsbD_or, BitVec.getLsbD_shiftLeft, BitVec.getLsbD_setWidth, hi] <;>
    interval_cases i <;> simp

/-- A word is the word with its fields (R60). -/
@[simp] theorem Fields.toWord_ofWord (w : Cmd) : (Fields.ofWord w).toWord = w := by
  refine BitVec.eq_of_getLsbD_eq fun i hi => ?_
  simp only [Fields.ofWord, Fields.toWord, BitVec.getLsbD_extractLsb', BitVec.getLsbD_or, BitVec.getLsbD_shiftLeft,
    BitVec.getLsbD_setWidth, hi]
  interval_cases i <;> simp

/-- Two words with the same fields are one word. -/
theorem Fields.ofWord_inj {w w' : Cmd} (h : Fields.ofWord w = Fields.ofWord w') : w = w' := by
  rw [← Fields.toWord_ofWord w, h, Fields.toWord_ofWord]

/-- A bit of the word with these fields (R60). -/
theorem Fields.getLsbD_toWord (f : Fields) (k : Nat) :
    f.toWord.getLsbD k =
      (decide (k < 32) && !decide (k < 28) && (decide (k - 28 < 32) && f.op.getLsbD (k - 28)) ||
            decide (k < 32) && !decide (k < 24) && (decide (k - 24 < 32) && f.ch.getLsbD (k - 24)) ||
          decide (k < 32) && !decide (k < 16) && (decide (k - 16 < 32) && f.sel.getLsbD (k - 16)) ||
        decide (k < 32) && f.data.getLsbD k) := by
  simp only [Fields.toWord, BitVec.getLsbD_or, BitVec.getLsbD_shiftLeft, BitVec.getLsbD_setWidth]

/-- Decoding an encoded command looks at its fields. -/
theorem decode_encode_eq (i : Instr) : decode (encode i) = decodeFields i.fields := by
  simp [decode, encode]

/-- The byte operand of a byte's `DATA` is the byte. -/
@[simp] theorem extractLsb'_byteData (b : Byte) : (byteData b).extractLsb' 0 8 = b := by
  refine BitVec.eq_of_getLsbD_eq fun i hi => ?_
  simp only [byteData, BitVec.getLsbD_extractLsb', BitVec.getLsbD_setWidth, hi]
  interval_cases i <;> simp

/-- The high byte of a byte's `DATA` is 0. -/
@[simp] theorem extractLsb'_high_byteData (b : Byte) : (byteData b).extractLsb' 8 8 = 0#8 := by
  refine BitVec.eq_of_getLsbD_eq fun i hi => ?_
  simp only [byteData, BitVec.getLsbD_extractLsb', BitVec.getLsbD_setWidth, hi]
  interval_cases i <;> simp

/-- A `DATA` with high byte 0 is the byte of its low half. -/
theorem byteData_of_high {d : BitVec 16} (h : d.extractLsb' 8 8 = 0#8) : byteData (d.extractLsb' 0 8) = d := by
  refine BitVec.eq_of_getLsbD_eq fun i hi => ?_
  rcases Nat.lt_or_ge i 8 with h8 | h8
  · simp [byteData, hi, h8]
  · have := congrArg (fun v => v.getLsbD (i - 8)) h
    have e : 8 + (i - 8) = i := by omega
    simp [e, show i - 8 < 8 by omega] at this
    simp [byteData, show ¬ i < 8 by omega, this]

/-- A guarded row is answered exactly when its must-be-zero fields hold. -/
theorem guardField_eq_ok {ok : Bool} {i j : Instr} : guardField ok i = .ok j ↔ ok = true ∧ i = j := by
  cases ok <;> simp [guardField]

/-- A guarded row is refused exactly when its must-be-zero fields do not hold. -/
theorem guardField_eq_error {ok : Bool} {i : Instr} {e : DecodeError} :
    guardField ok i = .error e ↔ ok = false ∧ e = .reservedField := by
  cases ok <;> simp [guardField, eq_comm]

/-- A field is the number it reads as. -/
theorem eq_ofNat_of_toNat {n k : Nat} {x : BitVec n} (h : x.toNat = k) : x = BitVec.ofNat n k := by
  rw [← h, BitVec.ofNat_toNat, BitVec.setWidth_eq]

/-- The five START words (R63). -/
theorem decodeStart_eq_ok {f : Fields} {i : Instr} :
    decodeStart f = .ok i ↔ f.data = 0#16 ∧ ∃ v : Variant, f.sel = v.code.zeroExtend 8 ∧ i = .start v f.ch.toNat := by
  unfold decodeStart
  by_cases hd : f.data = 0#16
  · simp only [hd, beq_self_eq_true, if_true, true_and]
    constructor
    · intro h
      split at h
      all_goals first | (rename_i hs; injection h with h) | contradiction
      · exact ⟨.dbs, eq_ofNat_of_toNat hs, h.symm⟩
      · exact ⟨.dtb, eq_ofNat_of_toNat hs, h.symm⟩
      · exact ⟨.rbs, eq_ofNat_of_toNat hs, h.symm⟩
      · exact ⟨.rtb, eq_ofNat_of_toNat hs, h.symm⟩
      · exact ⟨.arc, eq_ofNat_of_toNat hs, h.symm⟩
    · rintro ⟨v, hv, rfl⟩
      rw [hv]
      cases v <;> rfl
  · simp [hd]

/-- The two TBLRD words (R63). -/
theorem decodeTblrd_eq_ok {f : Fields} {i : Instr} :
    decodeTblrd f = .ok i ↔ f.ch = 0#4 ∧ f.byteOk = true ∧
      ((f.sel = 0#8 ∧ i = .tblrdD f.byte) ∨ (f.sel = 1#8 ∧ i = .tblrdR f.byte)) := by
  unfold decodeTblrd
  by_cases hd : f.ch = 0#4 ∧ f.byteOk = true
  · obtain ⟨h1, h2⟩ := hd
    simp only [h1, h2, beq_self_eq_true, Bool.and_self, if_true, true_and]
    constructor
    · intro h
      split at h
      all_goals first | (rename_i hs; injection h with h) | contradiction
      · exact .inl ⟨eq_ofNat_of_toNat hs, h.symm⟩
      · exact .inr ⟨eq_ofNat_of_toNat hs, h.symm⟩
    · rintro (⟨hs, rfl⟩ | ⟨hs, rfl⟩) <;> rw [hs] <;> rfl
  · rw [if_neg (by simpa using hd)]
    simp only [reduceCtorEq, false_iff]
    tauto

/-- A channel that fits the field survives it (R62). -/
theorem toNat_ofNat_channel {c : Nat} (h : channelFits c = true) : (BitVec.ofNat 4 c).toNat = c := by
  have hc : c < 16 := of_decide_eq_true h
  simp [Nat.mod_eq_of_lt hc]

/-- A field number is the number of its value. -/
theorem opOf_eq (w : Cmd) : opOf w = (Fields.ofWord w).op.toNat := rfl

theorem chOf_eq (w : Cmd) : chOf w = (Fields.ofWord w).ch.toNat := rfl

theorem selOf_eq (w : Cmd) : selOf w = (Fields.ofWord w).sel.toNat := rfl

theorem dataOf_eq (w : Cmd) : dataOf w = (Fields.ofWord w).data.toNat := rfl

/-- `DATA[15:8]` of the word is the high byte of its `DATA` field. -/
theorem extractLsb'_dataHigh (w : Cmd) : (w.extractLsb' 0 16).extractLsb' 8 8 = w.extractLsb' 8 8 := by
  refine BitVec.eq_of_getLsbD_eq fun i hi => ?_
  simp [hi]

/-- `DATA[7:0]` of the word is the low byte of its `DATA` field. -/
theorem extractLsb'_dataLow (w : Cmd) : (w.extractLsb' 0 16).extractLsb' 0 8 = w.extractLsb' 0 8 := by
  refine BitVec.eq_of_getLsbD_eq fun i hi => ?_
  simp [hi]

end Sys2Proof
end

