-- ==== Sys2Proof/Laws/State.lean ====
section
/-! SUPPORT. One lemma per field for each named update of the state, true by rfl, so that no later proof unfolds a record
update. -/

namespace Sys2Proof.Machine

open Sys2Proof

@[simp] theorem State.respond_cfg (s : State) (e : ErrCode) (d : Word) : (s.respond e d).cfg = s.cfg := rfl
@[simp] theorem State.respond_rst (s : State) (e : ErrCode) (d : Word) : (s.respond e d).rst = s.rst := rfl
@[simp] theorem State.respond_built (s : State) (e : ErrCode) (d : Word) : (s.respond e d).built = s.built := rfl
@[simp] theorem State.respond_td (s : State) (e : ErrCode) (d : Word) : (s.respond e d).td = s.td := rfl
@[simp] theorem State.respond_tr (s : State) (e : ErrCode) (d : Word) : (s.respond e d).tr = s.tr := rfl
@[simp] theorem State.respond_chans (s : State) (e : ErrCode) (d : Word) : (s.respond e d).chans = s.chans := rfl
@[simp] theorem State.respond_inFlight (s : State) (e : ErrCode) (d : Word) : (s.respond e d).inFlight = s.inFlight := rfl
@[simp] theorem State.respond_queue (s : State) (e : ErrCode) (d : Word) : (s.respond e d).queue = s.queue ++ [⟨e, d⟩] := rfl
@[simp] theorem State.respond_cmds (s : State) (e : ErrCode) (d : Word) : (s.respond e d).cmds = s.cmds := rfl
@[simp] theorem State.respond_turns (s : State) (e : ErrCode) (d : Word) : (s.respond e d).turns = s.turns := rfl
@[simp] theorem State.respond_taken (s : State) (e : ErrCode) (d : Word) : (s.respond e d).taken = s.taken := rfl

@[simp] theorem State.raise_cfg (s : State) (e : ErrCode) : (s.raise e).cfg = s.cfg := rfl
@[simp] theorem State.raise_rst (s : State) (e : ErrCode) : (s.raise e).rst = s.rst := rfl
@[simp] theorem State.raise_built (s : State) (e : ErrCode) : (s.raise e).built = s.built := rfl
@[simp] theorem State.raise_td (s : State) (e : ErrCode) : (s.raise e).td = s.td := rfl
@[simp] theorem State.raise_tr (s : State) (e : ErrCode) : (s.raise e).tr = s.tr := rfl
@[simp] theorem State.raise_chans (s : State) (e : ErrCode) : (s.raise e).chans = s.chans := rfl
@[simp] theorem State.raise_inFlight (s : State) (e : ErrCode) : (s.raise e).inFlight = s.inFlight := rfl
@[simp] theorem State.raise_queue (s : State) (e : ErrCode) : (s.raise e).queue = s.queue ++ [⟨e, 0#16⟩] := rfl
@[simp] theorem State.raise_cmds (s : State) (e : ErrCode) : (s.raise e).cmds = s.cmds := rfl
@[simp] theorem State.raise_turns (s : State) (e : ErrCode) : (s.raise e).turns = s.turns := rfl
@[simp] theorem State.raise_taken (s : State) (e : ErrCode) : (s.raise e).taken = s.taken := rfl

@[simp] theorem State.setChan_cfg (s : State) (c : Nat) (ch : Channel) : (s.setChan c ch).cfg = s.cfg := rfl
@[simp] theorem State.setChan_rst (s : State) (c : Nat) (ch : Channel) : (s.setChan c ch).rst = s.rst := rfl
@[simp] theorem State.setChan_built (s : State) (c : Nat) (ch : Channel) : (s.setChan c ch).built = s.built := rfl
@[simp] theorem State.setChan_td (s : State) (c : Nat) (ch : Channel) : (s.setChan c ch).td = s.td := rfl
@[simp] theorem State.setChan_tr (s : State) (c : Nat) (ch : Channel) : (s.setChan c ch).tr = s.tr := rfl
@[simp] theorem State.setChan_chans (s : State) (c : Nat) (ch : Channel) : (s.setChan c ch).chans = s.chans.set c ch := rfl
@[simp] theorem State.setChan_inFlight (s : State) (c : Nat) (ch : Channel) : (s.setChan c ch).inFlight = s.inFlight := rfl
@[simp] theorem State.setChan_queue (s : State) (c : Nat) (ch : Channel) : (s.setChan c ch).queue = s.queue := rfl
@[simp] theorem State.setChan_cmds (s : State) (c : Nat) (ch : Channel) : (s.setChan c ch).cmds = s.cmds := rfl
@[simp] theorem State.setChan_turns (s : State) (c : Nat) (ch : Channel) : (s.setChan c ch).turns = s.turns := rfl
@[simp] theorem State.setChan_taken (s : State) (c : Nat) (ch : Channel) : (s.setChan c ch).taken = s.taken := rfl

@[simp] theorem State.clearByReset_cfg (s : State) : (s.clearByReset).cfg = s.cfg := rfl
@[simp] theorem State.clearByReset_rst (s : State) : (s.clearByReset).rst = s.rst := rfl
@[simp] theorem State.clearByReset_built (s : State) : (s.clearByReset).built = false := rfl
@[simp] theorem State.clearByReset_td (s : State) : (s.clearByReset).td = [] := rfl
@[simp] theorem State.clearByReset_tr (s : State) : (s.clearByReset).tr = [] := rfl
@[simp] theorem State.clearByReset_chans (s : State) : (s.clearByReset).chans = s.chans.map fun _ => Channel.idle := rfl
@[simp] theorem State.clearByReset_inFlight (s : State) : (s.clearByReset).inFlight = none := rfl
@[simp] theorem State.clearByReset_queue (s : State) : (s.clearByReset).queue = [] := rfl
@[simp] theorem State.clearByReset_cmds (s : State) : (s.clearByReset).cmds = s.cmds := rfl
@[simp] theorem State.clearByReset_turns (s : State) : (s.clearByReset).turns = s.turns := rfl
@[simp] theorem State.clearByReset_taken (s : State) : (s.clearByReset).taken = s.taken := rfl

@[simp] theorem State.offerCmd_cfg (s : State) (w : Cmd) : (s.offerCmd w).cfg = s.cfg := rfl
@[simp] theorem State.offerCmd_rst (s : State) (w : Cmd) : (s.offerCmd w).rst = s.rst := rfl
@[simp] theorem State.offerCmd_built (s : State) (w : Cmd) : (s.offerCmd w).built = s.built := rfl
@[simp] theorem State.offerCmd_td (s : State) (w : Cmd) : (s.offerCmd w).td = s.td := rfl
@[simp] theorem State.offerCmd_tr (s : State) (w : Cmd) : (s.offerCmd w).tr = s.tr := rfl
@[simp] theorem State.offerCmd_chans (s : State) (w : Cmd) : (s.offerCmd w).chans = s.chans := rfl
@[simp] theorem State.offerCmd_inFlight (s : State) (w : Cmd) : (s.offerCmd w).inFlight = s.inFlight := rfl
@[simp] theorem State.offerCmd_queue (s : State) (w : Cmd) : (s.offerCmd w).queue = s.queue := rfl
@[simp] theorem State.offerCmd_cmds (s : State) (w : Cmd) : (s.offerCmd w).cmds = s.cmds ++ [w] := rfl
@[simp] theorem State.offerCmd_turns (s : State) (w : Cmd) : (s.offerCmd w).turns = s.turns := rfl
@[simp] theorem State.offerCmd_taken (s : State) (w : Cmd) : (s.offerCmd w).taken = s.taken := rfl

@[simp] theorem State.loadWord_cfg (s : State) (w : Cmd) : (s.loadWord w).cfg = s.cfg := rfl
@[simp] theorem State.loadWord_rst (s : State) (w : Cmd) : (s.loadWord w).rst = !s.cfg.rstActive := rfl
@[simp] theorem State.loadWord_built (s : State) (w : Cmd) : (s.loadWord w).built = true := rfl
@[simp] theorem State.loadWord_td (s : State) (w : Cmd) : (s.loadWord w).td = s.td := rfl
@[simp] theorem State.loadWord_tr (s : State) (w : Cmd) : (s.loadWord w).tr = s.tr := rfl
@[simp] theorem State.loadWord_chans (s : State) (w : Cmd) : (s.loadWord w).chans = s.chans := rfl
@[simp] theorem State.loadWord_inFlight (s : State) (w : Cmd) : (s.loadWord w).inFlight = some w := rfl
@[simp] theorem State.loadWord_queue (s : State) (w : Cmd) : (s.loadWord w).queue = s.queue := rfl
@[simp] theorem State.loadWord_cmds (s : State) (w : Cmd) : (s.loadWord w).cmds = s.cmds := rfl
@[simp] theorem State.loadWord_turns (s : State) (w : Cmd) : (s.loadWord w).turns = [] := rfl
@[simp] theorem State.loadWord_taken (s : State) (w : Cmd) : (s.loadWord w).taken = s.taken := rfl

@[simp] theorem State.respond_table (s : State) (e : ErrCode) (d : Word) (t : TableSel) :
    (s.respond e d).table t = s.table t := rfl

@[simp] theorem State.setChan_table (s : State) (c : Nat) (ch : Channel) (t : TableSel) :
    (s.setChan c ch).table t = s.table t := rfl

@[simp] theorem State.respond_tblRead (s : State) (e : ErrCode) (d : Word) (t : TableSel) (i : Byte) :
    (s.respond e d).tblRead t i = s.tblRead t i := rfl

@[simp] theorem State.setChan_tblRead (s : State) (c : Nat) (ch : Channel) (t : TableSel) (i : Byte) :
    (s.setChan c ch).tblRead t i = s.tblRead t i := rfl

@[simp] theorem State.respond_nch (s : State) (e : ErrCode) (d : Word) : (s.respond e d).nch = s.nch := rfl

@[simp] theorem State.raise_nch (s : State) (e : ErrCode) : (s.raise e).nch = s.nch := rfl

@[simp] theorem State.setChan_nch (s : State) (c : Nat) (ch : Channel) : (s.setChan c ch).nch = s.nch := by
  simp [State.nch]

@[simp] theorem State.clearByReset_nch (s : State) : s.clearByReset.nch = s.nch := by
  simp [State.nch]

@[simp] theorem State.respond_chan? (s : State) (e : ErrCode) (d : Word) (c : Nat) :
    (s.respond e d).chan? c = s.chan? c := rfl

@[simp] theorem State.raise_chan? (s : State) (e : ErrCode) (c : Nat) : (s.raise e).chan? c = s.chan? c := rfl

/-- The written channel reads back, where the core has it. -/
theorem State.setChan_chan?_self (s : State) (c : Nat) (ch : Channel) (h : c < s.nch) :
    (s.setChan c ch).chan? c = some ch := by
  have : c < s.chans.length := h
  simp [State.chan?, this]

/-- The other channels read as before. -/
theorem State.setChan_chan?_other (s : State) (c c' : Nat) (ch : Channel) (h : c' ≠ c) :
    (s.setChan c ch).chan? c' = s.chan? c' := by
  simp [State.chan?, List.getElem?_set_ne (Ne.symm h)]

/-- A channel number names a channel exactly below `NCH`. -/
theorem State.chan?_eq_none (s : State) (c : Nat) : s.chan? c = none ↔ s.nch ≤ c := by
  simp [State.chan?, State.nch]

/-- A channel that reads is one the core has. -/
theorem State.lt_nch_of_chan? {s : State} {c : Nat} {ch : Channel} (h : s.chan? c = some ch) : c < s.nch := by
  have := (List.getElem?_eq_some_iff.mp h).1
  exact this

/-- After reset every channel of the core is idle. -/
theorem State.clearByReset_chan? (s : State) (c : Nat) (h : c < s.nch) : s.clearByReset.chan? c = some .idle := by
  have : c < s.chans.length := h
  simp [State.chan?, this]

end Sys2Proof.Machine
end

