-- ==== Sys2Proof/Laws/Ops.lean ====
section
/-! SUPPORT. One lemma for each shared operation that says once everything it can do. -/

namespace Sys2Proof.Machine

open Sys2Proof

/-- START on a channel the core has (R142). -/
theorem State.startCall_of_lt (s : State) (v : Variant) (c : Nat) (h : c < s.nch) :
    s.startCall v c = (s.setChan c (.opened v (initOf v))).respond .ok 0#16 := by
  have hc : s.chan? c = some s.chans[c] := List.getElem?_eq_getElem h
  simp [State.startCall, hc]

/-- START on a channel the core does not have (R162). -/
theorem State.startCall_of_ge (s : State) (v : Variant) (c : Nat) (h : s.nch ≤ c) :
    s.startCall v c = s.raise .channel := by
  simp [State.startCall, (s.chan?_eq_none c).mpr h]

/-- FEED to an open call (R144). -/
theorem State.feedCall_of_opened {s : State} {c : Nat} {v : Variant} {a : Word} (b : Byte)
    (h : s.chan? c = some (.opened v a)) :
    s.feedCall c b = (s.setChan c (.opened v (s.upd v a b))).respond .ok 0#16 := by
  simp [State.feedCall, h]

/-- FEED to a closed channel (R163). -/
theorem State.feedCall_of_idle {s : State} {c : Nat} (b : Byte) (h : s.chan? c = some .idle) :
    s.feedCall c b = s.raise .notOpen := by
  simp [State.feedCall, h]

/-- FEED to a channel the core does not have (R162). -/
theorem State.feedCall_of_ge (s : State) (c : Nat) (b : Byte) (h : s.nch ≤ c) : s.feedCall c b = s.raise .channel := by
  simp [State.feedCall, (s.chan?_eq_none c).mpr h]

/-- FINISH of an open call (R146). -/
theorem State.finishCall_of_opened {s : State} {c : Nat} {v : Variant} {a : Word}
    (h : s.chan? c = some (.opened v a)) :
    s.finishCall c = (s.setChan c .idle).respond .ok (a ^^^ xoroutOf v) := by
  simp [State.finishCall, h]

/-- FINISH of a closed channel (R163). -/
theorem State.finishCall_of_idle {s : State} {c : Nat} (h : s.chan? c = some .idle) :
    s.finishCall c = s.raise .notOpen := by
  simp [State.finishCall, h]

/-- FINISH of a channel the core does not have (R162). -/
theorem State.finishCall_of_ge (s : State) (c : Nat) (h : s.nch ≤ c) : s.finishCall c = s.raise .channel := by
  simp [State.finishCall, (s.chan?_eq_none c).mpr h]

/-- What a command does to a state, whichever it is: one response, and at most one channel rewritten. -/
def commandEffect (s t : State) (c : Nat) : Prop :=
  (∃ e d, t = s.respond e d) ∨ ∃ ch e d, c < s.nch ∧ t = (s.setChan c ch).respond e d

theorem State.startCall_effect (s : State) (v : Variant) (c : Nat) : commandEffect s (s.startCall v c) c := by
  rcases Nat.lt_or_ge c s.nch with h | h
  · exact .inr ⟨_, _, _, h, s.startCall_of_lt v c h⟩
  · exact .inl ⟨_, _, s.startCall_of_ge v c h⟩

theorem State.feedCall_effect (s : State) (c : Nat) (b : Byte) : commandEffect s (s.feedCall c b) c := by
  rcases h : s.chan? c with _ | _ | ⟨v, a⟩
  · exact .inl ⟨.channel, 0#16, by simp [State.feedCall, h, State.raise]⟩
  · exact .inl ⟨_, _, State.feedCall_of_idle b h⟩
  · exact .inr ⟨_, _, _, State.lt_nch_of_chan? h, State.feedCall_of_opened b h⟩

theorem State.finishCall_effect (s : State) (c : Nat) : commandEffect s (s.finishCall c) c := by
  rcases h : s.chan? c with _ | _ | ⟨v, a⟩
  · exact .inl ⟨.channel, 0#16, by simp [State.finishCall, h, State.raise]⟩
  · exact .inl ⟨_, _, State.finishCall_of_idle h⟩
  · exact .inr ⟨_, _, _, State.lt_nch_of_chan? h, State.finishCall_of_opened h⟩

/-- The state a command leaves: every command answers one (R166, R169). -/
def resultOf : Instr → State → State
  | .nop, s => s.respond .ok 0#16
  | .startDbs c, s => s.startCall .dbs c
  | .startDtb c, s => s.startCall .dtb c
  | .startRbs c, s => s.startCall .rbs c
  | .startRtb c, s => s.startCall .rtb c
  | .startArc c, s => s.startCall .arc c
  | .feed c b, s => s.feedCall c b
  | .finish c, s => s.finishCall c
  | .stat, s => s.respond .ok s.openMask
  | .tblrdD i, s => s.respond .ok (s.tblRead .direct i)
  | .tblrdR i, s => s.respond .ok (s.tblRead .reflected i)
  | .step8d w, s => s.respond .ok (step8D w)
  | .step8r w, s => s.respond .ok (step8R w)
  | .rev8 x, s => s.respond .ok (zext16 (rev8 x))
  | .rev16 w, s => s.respond .ok (rev16 w)

theorem exec_eq_next (i : Instr) (s : State) : exec i s = .next (resultOf i s) := by
  cases i <;> rfl

/-- What any command does: one response, and at most the channel it names rewritten. -/
theorem resultOf_effect (i : Instr) (s : State) :
    (∃ e d, resultOf i s = s.respond e d) ∨
      ∃ c ch e d, i.channel? = some c ∧ c < s.nch ∧ resultOf i s = (s.setChan c ch).respond e d := by
  have lift : ∀ (c : Nat) (t : State), commandEffect s t c →
      (∃ e d, t = s.respond e d) ∨ ∃ c' ch e d, some c = some c' ∧ c' < s.nch ∧ t = (s.setChan c' ch).respond e d := by
    rintro c t (h | ⟨ch, e, d, hc, h⟩)
    · exact .inl h
    · exact .inr ⟨c, ch, e, d, rfl, hc, h⟩
  cases i with
  | startDbs c => exact lift c _ (s.startCall_effect .dbs c)
  | startDtb c => exact lift c _ (s.startCall_effect .dtb c)
  | startRbs c => exact lift c _ (s.startCall_effect .rbs c)
  | startRtb c => exact lift c _ (s.startCall_effect .rtb c)
  | startArc c => exact lift c _ (s.startCall_effect .arc c)
  | feed c b => exact lift c _ (s.feedCall_effect c b)
  | finish c => exact lift c _ (s.finishCall_effect c)
  | nop => exact .inl ⟨_, _, rfl⟩
  | stat => exact .inl ⟨_, _, rfl⟩
  | tblrdD i => exact .inl ⟨_, _, rfl⟩
  | tblrdR i => exact .inl ⟨_, _, rfl⟩
  | step8d w => exact .inl ⟨_, _, rfl⟩
  | step8r w => exact .inl ⟨_, _, rfl⟩
  | rev8 x => exact .inl ⟨_, _, rfl⟩
  | rev16 w => exact .inl ⟨_, _, rfl⟩

/-- What completing a word does: an E_RESERVED response, or the command it decodes to. -/
theorem runWord_cases (w : Cmd) (s : State) :
    (∃ e, decode w = .error e ∧ runWord w s = .next (s.raise .reserved)) ∨
      ∃ i, decode w = .ok i ∧ runWord w s = .next (resultOf i s) := by
  unfold runWord
  rcases decode w with e | i
  · exact .inl ⟨e, rfl, rfl⟩
  · exact .inr ⟨i, rfl, exec_eq_next i s⟩

/-- A command transfer happens exactly when the host offers one and `cmd_ready_o = 1` (R36). -/
theorem State.acceptCmd_cases (s : State) :
    (∃ w ws, s.cmds = w :: ws ∧ s.cmdReadyO = true ∧ s.acceptCmd = { s with cmds := ws, inFlight := some w }) ∨
      ((s.cmds = [] ∨ s.cmdReadyO = false) ∧ s.acceptCmd = s) := by
  unfold State.acceptCmd
  rcases s.cmds with _ | ⟨w, ws⟩
  · exact .inr ⟨.inl rfl, rfl⟩
  · cases hr : s.cmdReadyO with
    | true => exact .inl ⟨w, ws, rfl, rfl, by simp⟩
    | false => exact .inr ⟨.inr rfl, by simp⟩

/-- A response transfer takes the front of the queue (R36). -/
theorem State.takeRsp_cases (s : State) :
    (s.queue = [] ∧ s.takeRsp = s) ∨
      ∃ r rs, s.queue = r :: rs ∧ s.takeRsp = { s with queue := rs, taken := s.taken ++ [r] } := by
  unfold State.takeRsp
  rcases h : s.queue with _ | ⟨r, rs⟩
  · exact .inl ⟨rfl, rfl⟩
  · exact .inr ⟨r, rs, rfl, rfl⟩

/-- The builder writes the next entry of `TD`, or of `TR`, or sets the build status (R86). -/
theorem State.buildStep_cases (s : State) :
    (s.td.length < 256 ∧
        s.buildStep = { s with td := s.td ++ [tableEntry .direct (BitVec.ofNat 8 s.td.length)] }) ∨
      (256 ≤ s.td.length ∧ s.tr.length < 256 ∧
        s.buildStep = { s with tr := s.tr ++ [tableEntry .reflected (BitVec.ofNat 8 s.tr.length)] }) ∨
      (256 ≤ s.td.length ∧ 256 ≤ s.tr.length ∧ s.buildStep = { s with built := true }) := by
  unfold State.buildStep Config.tblN
  by_cases h1 : s.td.length < 256
  · exact .inl ⟨h1, by simp [h1]⟩
  · by_cases h2 : s.tr.length < 256
    · exact .inr (.inl ⟨by omega, h2, by simp [h1, h2]⟩)
    · exact .inr (.inr ⟨by omega, by omega, by simp [h1, h2]⟩)

/-- Driving `rst` to its asserted level resets the core; to the other level it only releases it (R180). -/
theorem State.driveReset_cases (s : State) (level : Bool) :
    (level = s.cfg.rstActive ∧ s.driveReset level = State.clearByReset { s with rst := level }) ∨
      (level = !s.cfg.rstActive ∧ s.driveReset level = { s with rst := level }) := by
  unfold State.driveReset
  cases h : s.cfg.rstActive <;> cases level <;> simp

/-- What the core's move does, one case a line. -/
theorem coreMove_cases (s : State) :
    (s.inReset = true ∧ coreMove s = .next s.clearByReset) ∨
      (s.inReset = false ∧ s.built = false ∧ coreMove s = .next s.buildStep) ∨
      (s.inReset = false ∧ s.built = true ∧ s.inFlight = none ∧ coreMove s = .next s.acceptCmd) ∨
      ∃ w, s.inReset = false ∧ s.built = true ∧ s.inFlight = some w ∧
        coreMove s = runWord w { s with inFlight := none } := by
  unfold coreMove
  cases hr : s.inReset with
  | true => exact .inl ⟨rfl, by simp⟩
  | false =>
    cases hb : s.built with
    | false => exact .inr (.inl ⟨rfl, rfl, by simp⟩)
    | true =>
      rcases hf : s.inFlight with _ | w
      · exact .inr (.inr (.inl ⟨rfl, rfl, rfl, by simp⟩))
      · exact .inr (.inr (.inr ⟨w, rfl, rfl, rfl, by simp⟩))

/-! ## The tables keep their form -/

@[simp] theorem length_builtEntries (t : TableSel) (n : Nat) : (builtEntries t n).length = n := by
  simp [builtEntries]

theorem builtEntries_succ (t : TableSel) (n : Nat) :
    builtEntries t (n + 1) = builtEntries t n ++ [tableEntry t (BitVec.ofNat 8 n)] := by
  simp [builtEntries, List.range_succ]

/-- Reading an entry of a whole table gives what the builder wrote there (R84, R85). -/
theorem getElem?_builtTable (t : TableSel) (i : Byte) : (builtTable t)[i.toNat]? = some (tableEntry t i) := by
  have h : i.toNat < 256 := i.isLt
  simp [builtTable, builtEntries, Config.tblN, h]

/-- Every move of the builder keeps both tables the beginning of the tables of R84 and R85. -/
theorem State.buildStep_keeps_table_form (s : State) (hd : s.td = builtEntries .direct s.td.length)
    (hr : s.tr = builtEntries .reflected s.tr.length) :
    s.buildStep.td = builtEntries .direct s.buildStep.td.length ∧
      s.buildStep.tr = builtEntries .reflected s.buildStep.tr.length := by
  rcases s.buildStep_cases with ⟨_, h⟩ | ⟨_, _, h⟩ | ⟨_, _, h⟩
  · rw [h]
    refine ⟨?_, hr⟩
    simp only [List.length_append, List.length_singleton, builtEntries_succ]
    rw [← hd]
  · rw [h]
    refine ⟨hd, ?_⟩
    simp only [List.length_append, List.length_singleton, builtEntries_succ]
    rw [← hr]
  · rw [h]
    exact ⟨hd, hr⟩

end Sys2Proof.Machine
end

