-- ==== Sys2Proof/Laws/PerInstr.lean ====
section
/-! SUPPORT. Facts about every command as syntax, one lemma per constructor. The family RowMatch: the word of a well-formed
command matches the row of the opcode map the command stands in (30_encoding.md R63). -/

namespace Sys2Proof.Laws.RowMatch

open Sys2Proof

/-- The encoded word matches the command's row: `(cmd & mask) = match` (R63). -/
def Statement (i : Instr) : Prop := i.WellFormed → i.row.selects (encode i) = true

/-- Bits of a word fixed by a mask, checked bit by bit. -/
theorem selects_of_bits {r : OpcodeRow} {w : Cmd}
    (h : ∀ k : Nat, k < 32 → (w.getLsbD k && r.mask.getLsbD k) = r.pattern.getLsbD k) : r.selects w = true := by
  have e : w &&& r.mask = r.pattern := by
    refine BitVec.eq_of_getLsbD_eq fun k hk => ?_
    rw [BitVec.getLsbD_and, h k hk]
  simp [OpcodeRow.selects, e]

theorem nop : Statement .nop := by
  intro _
  decide

theorem startDbs (c : Nat) : Statement (.startDbs c) := by
  intro _
  refine selects_of_bits fun k hk => ?_
  rw [encode, Fields.getLsbD_toWord]
  interval_cases k <;> simp [Instr.fields, Instr.row]

theorem startDtb (c : Nat) : Statement (.startDtb c) := by
  intro _
  refine selects_of_bits fun k hk => ?_
  rw [encode, Fields.getLsbD_toWord]
  interval_cases k <;> simp [Instr.fields, Instr.row]

theorem startRbs (c : Nat) : Statement (.startRbs c) := by
  intro _
  refine selects_of_bits fun k hk => ?_
  rw [encode, Fields.getLsbD_toWord]
  interval_cases k <;> simp [Instr.fields, Instr.row]

theorem startRtb (c : Nat) : Statement (.startRtb c) := by
  intro _
  refine selects_of_bits fun k hk => ?_
  rw [encode, Fields.getLsbD_toWord]
  interval_cases k <;> simp [Instr.fields, Instr.row]

theorem startArc (c : Nat) : Statement (.startArc c) := by
  intro _
  refine selects_of_bits fun k hk => ?_
  rw [encode, Fields.getLsbD_toWord]
  interval_cases k <;> simp [Instr.fields, Instr.row]

theorem feed (c : Nat) (b : Byte) : Statement (.feed c b) := by
  intro _
  refine selects_of_bits fun k hk => ?_
  rw [encode, Fields.getLsbD_toWord]
  interval_cases k <;> simp [Instr.fields, Instr.row, byteData]

theorem finish (c : Nat) : Statement (.finish c) := by
  intro _
  refine selects_of_bits fun k hk => ?_
  rw [encode, Fields.getLsbD_toWord]
  interval_cases k <;> simp [Instr.fields, Instr.row]

theorem stat : Statement .stat := by
  intro _
  decide

theorem tblrdD (i : Byte) : Statement (.tblrdD i) := by
  intro _
  refine selects_of_bits fun k hk => ?_
  rw [encode, Fields.getLsbD_toWord]
  interval_cases k <;> simp [Instr.fields, Instr.row, byteData]

theorem tblrdR (i : Byte) : Statement (.tblrdR i) := by
  intro _
  refine selects_of_bits fun k hk => ?_
  rw [encode, Fields.getLsbD_toWord]
  interval_cases k <;> simp [Instr.fields, Instr.row, byteData]

theorem step8d (w : Word) : Statement (.step8d w) := by
  intro _
  refine selects_of_bits fun k hk => ?_
  rw [encode, Fields.getLsbD_toWord]
  interval_cases k <;> simp [Instr.fields, Instr.row]

theorem step8r (w : Word) : Statement (.step8r w) := by
  intro _
  refine selects_of_bits fun k hk => ?_
  rw [encode, Fields.getLsbD_toWord]
  interval_cases k <;> simp [Instr.fields, Instr.row]

theorem rev8 (x : Byte) : Statement (.rev8 x) := by
  intro _
  refine selects_of_bits fun k hk => ?_
  rw [encode, Fields.getLsbD_toWord]
  interval_cases k <;> simp [Instr.fields, Instr.row, byteData]

theorem rev16 (w : Word) : Statement (.rev16 w) := by
  intro _
  refine selects_of_bits fun k hk => ?_
  rw [encode, Fields.getLsbD_toWord]
  interval_cases k <;> simp [Instr.fields, Instr.row]

end Sys2Proof.Laws.RowMatch
end

