-- ==== Sys2Proof/Laws/Run.lean ====
section
/-! SUPPORT. Runs of the machine: one step of a run at a time. -/

namespace Sys2Proof.Machine

open Sys2Proof

/-- No steps leave the state as it is. -/
theorem run_zero (s : State) : Host.Core.run Sys2Proof.core 0 s = .next s := rfl

/-- A run of one step more is the step and then the run. -/
theorem run_succ_of_step {s t : State} (h : step s = .next t) (k : Nat) :
    Host.Core.run Sys2Proof.core (k + 1) s = Host.Core.run Sys2Proof.core k t := by
  have h' : Sys2Proof.core.step s = .next t := h
  simp only [Host.Core.run, h']

/-- The next step of a core about to complete a word completes it (R12). -/
theorem step_of_completing {s : State} {w : Cmd} (h : s.Completing w) :
    step s = runWord w { s with inFlight := none } := by
  obtain ⟨⟨h1, h2, h3⟩, h4⟩ := h
  simp [step, h1, coreMove, h2, h3, h4]

/-- With an empty schedule the core moves. -/
theorem step_of_no_turns {s : State} (h : s.turns = []) : step s = coreMove s := by
  simp [step, h]

/-- With a turn in the schedule, that turn is made. -/
theorem step_of_turn {s : State} {t : Turn} {rest : List Turn} (h : s.turns = t :: rest) :
    step s = takeTurn t { s with turns := rest } := by
  simp [step, h]

end Sys2Proof.Machine
end

