-- ==== Sys2Proof/Tests/Slice0.lean ====
section
/-! SUPPORT. Tests. Expected values come from spec/: the columns of R63, the rules' own examples, and the vectors of
95_test_vectors.md; the section is named above each group. The last part has one witness for the hypotheses of each
obligation. -/

namespace Sys2Proof.Tests

open Sys2Proof Sys2Proof.Machine

/-! ## WellFormed: each check refuses an ill-formed command (R60: `CH` has four bits) -/

theorem test_wf_startDbs : (Instr.startDbs 16).wf = false ∧ (Instr.startDbs 15).wf = true := by decide

theorem test_wf_startDtb : (Instr.startDtb 16).wf = false ∧ (Instr.startDtb 15).wf = true := by decide

theorem test_wf_startRbs : (Instr.startRbs 16).wf = false ∧ (Instr.startRbs 15).wf = true := by decide

theorem test_wf_startRtb : (Instr.startRtb 16).wf = false ∧ (Instr.startRtb 15).wf = true := by decide

theorem test_wf_startArc : (Instr.startArc 16).wf = false ∧ (Instr.startArc 15).wf = true := by decide

theorem test_wf_feed : (Instr.feed 16 0x00#8).wf = false ∧ (Instr.feed 15 0xFF#8).wf = true := by decide

theorem test_wf_finish : (Instr.finish 16).wf = false ∧ (Instr.finish 15).wf = true := by decide

/-! ## Decoding: a word of every row, its bits written as `OP ++ CH ++ SEL ++ DATA` (R60) from the columns of R63 -/

/-- A word from its four fields, written beside each other (R60). -/
def word (op : BitVec 4) (ch : BitVec 4) (sel : BitVec 8) (data : BitVec 16) : Cmd := op ++ ch ++ sel ++ data

theorem test_decode_nop : decode (word 0x0#4 0#4 0#8 0#16) = .ok .nop := by rfl

theorem test_decode_startDbs : decode (word 0x1#4 0b0110#4 0#8 0#16) = .ok (.startDbs 6) := by rfl

theorem test_decode_startDtb : decode (word 0x1#4 0b1111#4 1#8 0#16) = .ok (.startDtb 15) := by rfl

theorem test_decode_startRbs : decode (word 0x1#4 0b0001#4 2#8 0#16) = .ok (.startRbs 1) := by rfl

theorem test_decode_startRtb : decode (word 0x1#4 0b1000#4 3#8 0#16) = .ok (.startRtb 8) := by rfl

theorem test_decode_startArc : decode (word 0x1#4 0b0010#4 4#8 0#16) = .ok (.startArc 2) := by rfl

theorem test_decode_feed : decode (word 0x2#4 0b1101#4 0#8 0x00A6#16) = .ok (.feed 13 0xA6#8) := by rfl

theorem test_decode_finish : decode (word 0x3#4 0b0111#4 0#8 0#16) = .ok (.finish 7) := by rfl

theorem test_decode_stat : decode (word 0x4#4 0#4 0#8 0#16) = .ok .stat := by rfl

theorem test_decode_tblrdD : decode (word 0x5#4 0#4 0#8 0x0081#16) = .ok (.tblrdD 0x81#8) := by rfl

theorem test_decode_tblrdR : decode (word 0x5#4 0#4 1#8 0x007E#16) = .ok (.tblrdR 0x7E#8) := by rfl

theorem test_decode_step8d : decode (word 0x6#4 0#4 0#8 0x8102#16) = .ok (.step8d 0x8102#16) := by rfl

theorem test_decode_step8r : decode (word 0x7#4 0#4 0#8 0x4081#16) = .ok (.step8r 0x4081#16) := by rfl

theorem test_decode_rev8 : decode (word 0x8#4 0#4 0#8 0x0095#16) = .ok (.rev8 0x95#8) := by rfl

theorem test_decode_rev16 : decode (word 0x9#4 0#4 0#8 0x9005#16) = .ok (.rev16 0x9005#16) := by rfl

/-- The decoder accepts the word. -/
def accepts (w : Cmd) : Bool :=
  match decode w with
  | .ok _ => true
  | .error _ => false

/-- The reserved words of 95_test_vectors.md sections 4, 7 and 8 decode to nothing. -/
theorem test_decode_reserved :
    [0x00000001#32, 0x10050000#32, 0x100400FF#32, 0x20000131#32, 0x20010031#32, 0x2F000131#32, 0x41000000#32,
      0x50000101#32, 0x50020001#32, 0x61000100#32, 0x800001B0#32, 0xA0000000#32, 0xFFFFFFFF#32].any accepts = false := by
  decide

/-- The opcode table's numbering: one 32-bit word, bit 0 least significant. -/
theorem test_decodeTableWord :
    decodeTableWord 32 0x2A0000C5 = some (.feed 10 0xC5#8) ∧ decodeTableWord 32 0xA0000000 = none := by decide

/-! ## One command on a core of `n` channels (95_test_vectors.md sections 4, 7, 8 and 9; the rules' own examples) -/

/-- A core of `n` channels after reset, with room for two responses. -/
def coreOf (n : Nat) : State := State.resetWith { nch := n, build := { rspq := 2, rstActive := true } }

/-- The last response, and channel `c`, after a command. -/
def seen (c : Nat) : Host.Outcome State Fault Refusal → Option (Option Response × Option Channel)
  | .next t => some (t.queue.getLast?, t.chan? c)
  | .fault _ => none
  | .refused _ => none

/-- `coreOf 2` with a call of mode `v` and accumulator `a` open on channel 1. -/
def openOne (v : Variant) (a : Word) : State := (coreOf 2).setChan 1 (.opened v a)

theorem test_exec_nop : seen 1 (exec .nop (openOne .dbs 0x1234#16)) =
    some (some ⟨.ok, 0#16⟩, some (.opened .dbs 0x1234#16)) := by decide

theorem test_exec_start_restarts : seen 1 (exec (.startArc 1) (openOne .dbs 0x1234#16)) =
    some (some ⟨.ok, 0#16⟩, some (.opened .arc 0x0000#16)) := by decide

theorem test_exec_start_no_channel : seen 2 (exec (.startDbs 2) (coreOf 2)) = some (some ⟨.channel, 0#16⟩, none) := by
  decide

theorem test_exec_feed_dbs : seen 1 (exec (.feed 1 0x56#8) (openOne .dbs 0x1234#16)) =
    some (some ⟨.ok, 0#16⟩, some (.opened .dbs 0x3598#16)) := by decide

theorem test_exec_feed_dtb : seen 1 (exec (.feed 1 0x56#8) (openOne .dtb 0x1234#16)) =
    some (some ⟨.ok, 0#16⟩, some (.opened .dtb 0x3598#16)) := by decide

theorem test_exec_feed_rbs : seen 1 (exec (.feed 1 0x56#8) (openOne .rbs 0x1234#16)) =
    some (some ⟨.ok, 0#16⟩, some (.opened .rbs 0xE993#16)) := by decide

theorem test_exec_feed_arc : seen 1 (exec (.feed 1 0x56#8) (openOne .arc 0x1234#16)) =
    some (some ⟨.ok, 0#16⟩, some (.opened .arc 0xE993#16)) := by decide

theorem test_exec_feed_closed : seen 0 (exec (.feed 0 0x01#8) (coreOf 1)) =
    some (some ⟨.notOpen, 0#16⟩, some .idle) := by decide

theorem test_exec_finish : seen 1 (exec (.finish 1) (openOne .dtb 0x80A5#16)) =
    some (some ⟨.ok, 0x80A5#16⟩, some .idle) := by decide

theorem test_exec_stat : seen 0 (exec .stat (openOne .dtb 0x0000#16)) =
    some (some ⟨.ok, 0x0002#16⟩, some .idle) := by decide

theorem test_exec_tblrdD : seen 0 (exec (.tblrdD 0x7F#8) (coreOf 1)) = some (some ⟨.ok, 0x8101#16⟩, some .idle) := by
  decide

theorem test_exec_tblrdR : seen 0 (exec (.tblrdR 0xFF#8) (coreOf 1)) = some (some ⟨.ok, 0x4040#16⟩, some .idle) := by
  decide

theorem test_exec_step8d : seen 0 (exec (.step8d 0xA001#16) (coreOf 1)) = some (some ⟨.ok, 0x02C0#16⟩, some .idle) := by
  decide

theorem test_exec_step8r : seen 0 (exec (.step8r 0x8005#16) (coreOf 1)) = some (some ⟨.ok, 0x0340#16⟩, some .idle) := by
  decide

theorem test_exec_rev8 : seen 0 (exec (.rev8 0xB0#8) (coreOf 1)) = some (some ⟨.ok, 0x000D#16⟩, some .idle) := by decide

theorem test_exec_rev16 : seen 0 (exec (.rev16 0xBB3D#16) (coreOf 1)) = some (some ⟨.ok, 0xBCDD#16⟩, some .idle) := by
  decide

/-- Section 8: E_RESERVED wins over E_CHANNEL, and E_CHANNEL over E_NOT_OPEN (R165). -/
theorem test_step_priority :
    seen 0 (step ((coreOf 2).withFetchWord 32 0x2F000131)) = some (some ⟨.reserved, 0#16⟩, some .idle) ∧
      seen 0 (step ((coreOf 2).withFetchWord 32 0x2F000031)) = some (some ⟨.channel, 0#16⟩, some .idle) := by decide

/-- `withFetchWord` makes the very next step run its word: `STEP8D 0x0100` answers `TD[1]` (R89). -/
theorem test_step_runs_the_word :
    seen 0 (step (State.reset.withFetchWord 32 0x60000100)) = some (some ⟨.ok, 0x8005#16⟩, some .idle) := by decide

/-- S3: the checksum of "123456789". -/
theorem test_known_vector :
    crc .arc [0x31#8, 0x32#8, 0x33#8, 0x34#8, 0x35#8, 0x36#8, 0x37#8, 0x38#8, 0x39#8] = 0xBB3D#16 := by
  decide +kernel

/-- Section 6: the checksums of `01 02 03 04`. -/
theorem test_crc_direct : crc .dtb [0x01#8, 0x02#8, 0x03#8, 0x04#8] = 0x9E33#16 := by decide

/-! ## Assembler text (R69, R70) -/

theorem test_asm_start : assembleLine "start CH15, arc" = some [0x1F040000#32] := by decide

theorem test_asm_numbers :
    assembleLine "FEED ch0, 0b110001" = some [0x20000031#32] ∧ assembleLine "FEED ch0, 49" = some [0x20000031#32] ∧
      assembleLine "FEED ch0, 256" = none ∧ assembleLine "FINISH ch16" = none := by decide

theorem test_asm_word : assembleLine ".word 0xA0000000" = some [0xA0000000#32] := by decide

theorem test_asm_crc : assembleLine "CRC ch1, DTB, \"12\"" =
    some [0x11010000#32, 0x21000031#32, 0x21000032#32, 0x31000000#32] := by decide

theorem test_disassemble_reserved : disassemble 0xA000000F#32 = ".word 0xA000000F".toList := by decide

/-! ## Witnesses: for each obligation with hypotheses, states and operands that meet them together, each clause at an edge
of its range -/

/-- A built core out of reset meets the invariant where its numbers do. -/
theorem built_inv {s : State} (hd : s.td = builtTable .direct) (hr : s.tr = builtTable .reflected)
    (hb : s.built = true) (hrst : s.inReset = false)
    (hn : 1 ≤ s.nch ∧ s.nch ≤ 16 ∧ 1 ≤ s.cfg.rspq ∧ s.queue.length + s.inFlight.toList.length ≤ s.cfg.rspq) :
    s.Inv where
  nch_pos := hn.1
  nch_le := hn.2.1
  rspq_pos := hn.2.2.1
  room := hn.2.2.2
  td_len := by rw [hd, builtTable, length_builtEntries]
  tr_len := by rw [hr, builtTable, length_builtEntries]
  td_entries := by rw [hd, builtTable, length_builtEntries]
  tr_entries := by rw [hr, builtTable, length_builtEntries]
  td_built _ := hd
  tr_built _ := hr
  unbuilt_queue h := absurd (hb.symm.trans h) (by decide)
  unbuilt_inFlight h := absurd (hb.symm.trans h) (by decide)
  unbuilt_idle h := absurd (hb.symm.trans h) (by decide)
  reset_unbuilt h := absurd (hrst.symm.trans h) (by decide)

/-- `coreOf 2` whose tables hold `n` entries of `TD` and none of `TR`, the reset input at `level`. -/
def building (n : Nat) (level : Bool) : State :=
  { coreOf 2 with rst := level, built := false, td := builtEntries .direct n, tr := [] }

/-- Every such core meets the invariant. -/
theorem building_inv (n : Nat) (level : Bool) (h : n ≤ 256) : (building n level).Inv where
  nch_pos := (by decide : 1 ≤ (coreOf 2).nch)
  nch_le := (by decide : (coreOf 2).nch ≤ 16)
  rspq_pos := (by decide : 1 ≤ (coreOf 2).cfg.rspq)
  room := (by decide : 0 + 0 ≤ (coreOf 2).cfg.rspq)
  td_len := by rw [building, length_builtEntries]; exact h
  tr_len := Nat.zero_le _
  td_entries := by simp [building]
  tr_entries := rfl
  td_built h := by cases h
  tr_built h := by cases h
  unbuilt_queue _ := rfl
  unbuilt_inFlight _ := rfl
  unbuilt_idle _ := (by decide : ∀ ch ∈ (coreOf 2).chans, ch = .idle)
  reset_unbuilt _ := rfl

/-- `s` about to complete the word `w`. -/
def completing (s : State) (w : Cmd) : State := { s with inFlight := some w }

/-- It is about to complete that word, whatever it is. -/
theorem test_completing (w : Cmd) : (completing (coreOf 2) w).Completing w := ⟨⟨rfl, rfl, rfl⟩, rfl⟩

theorem test_witness_DecodeInvertsEncode : (Instr.feed 15 0xFF#8).WellFormed := by decide

theorem test_witness_EncodeInvertsDecode : decode 0x2F0000FF#32 = .ok (.feed 15 0xFF#8) := by rfl

theorem test_witness_WordSelectsTheRowOfTheOpcodeMap :
    decode 0x5F000000#32 = .error .reservedField ∧ decode 0x90008005#32 = .ok (.rev16 0x8005#16) ∧
      (Instr.rev16 0#16).row ∈ opcodeRows ∧ (Instr.rev16 0#16).row.selects 0x90008005#32 = true := by
  exact ⟨rfl, rfl, by decide, by decide⟩

theorem test_witness_DecodingChecksTheRowThenTheChannel :
    (∀ r ∈ opcodeRows, r.selects 0x2F000131#32 = false) ∧
      ((∃ r ∈ opcodeRows, r.selects 0x12000000#32 = true) ∧ opOf 0x12000000#32 ∈ [1, 2, 3] ∧ 2 ≤ chOf 0x12000000#32) ∧
      (∃ r ∈ opcodeRows, r.selects 0x31000000#32 = true) ∧
      ¬ (opOf 0x31000000#32 ∈ [1, 2, 3] ∧ 2 ≤ chOf 0x31000000#32) := by decide

theorem test_witness_ReservedWordsRaiseReserved :
    (completing (coreOf 2) 0xA0000000#32).Completing 0xA0000000#32 ∧ 10 ≤ opOf 0xA0000000#32 ∧
      (completing (coreOf 2) 0x10050000#32).Completing 0x10050000#32 ∧ fieldOutsideRow 0x10050000#32 ∧
      opOf 0x9000FFFF#32 < 10 ∧ ¬ fieldOutsideRow 0x9000FFFF#32 := by
  refine ⟨test_completing _, by decide, test_completing _, ?_, by decide, ?_⟩ <;> unfold fieldOutsideRow <;> decide

theorem test_witness_FirstApplicableErrorIsReported :
    (completing (coreOf 2) 0x22000000#32).Completing 0x22000000#32 ∧
      expectedError (completing (coreOf 2) 0x22000000#32) 0x22000000#32 = .channel ∧
      expectedError (completing (coreOf 2) 0x21000000#32) 0x21000000#32 = .notOpen ∧
      expectedError (completing (coreOf 2) 0x2F000131#32) 0x2F000131#32 = .reserved ∧ (coreOf 16).nch = 16 :=
  ⟨test_completing _, by decide, by decide, by decide, by decide⟩

theorem test_witness_BuiltTablesHoldTheLoopRemainders : (coreOf 2).Inv ∧ (coreOf 2).readyO = true :=
  ⟨built_inv rfl rfl rfl (by decide) (by decide), rfl⟩

theorem test_witness_NoCommandWritesATable :
    (∃ t, exec (.feed 1 0x56#8) (openOne .dtb 0x1234#16) = .next t) ∧
      ∃ t, step (coreOf 2) = .next t ∧ (coreOf 2).readyO = true ∧ t.readyO = true :=
  ⟨⟨_, rfl⟩, _, rfl, rfl, rfl⟩

theorem test_witness_TblrdAnswersTheTableEntry :
    (coreOf 2).TablesBuilt ∧
      ((completing (coreOf 2) 0x51000000#32).Completing 0x51000000#32 ∧ opOf 0x51000000#32 = 5 ∧ chOf 0x51000000#32 ≠ 0) ∧
      ((completing (coreOf 2) 0x50020001#32).Completing 0x50020001#32 ∧ opOf 0x50020001#32 = 5 ∧ 1 < selOf 0x50020001#32) ∧
      ((completing (coreOf 2) 0x50000101#32).Completing 0x50000101#32 ∧ opOf 0x50000101#32 = 5 ∧
        dataHighOf 0x50000101#32 ≠ 0) ∧
      (opOf 0x500100FF#32 = 5 ∧ chOf 0x500100FF#32 = 0 ∧ dataHighOf 0x500100FF#32 = 0 ∧ selOf 0x500100FF#32 = 1) ∧
      opOf 0x500000FF#32 = 5 ∧ chOf 0x500000FF#32 = 0 ∧ dataHighOf 0x500000FF#32 = 0 ∧ selOf 0x500000FF#32 = 0 :=
  ⟨⟨rfl, rfl⟩, ⟨test_completing _, by decide⟩, ⟨test_completing _, by decide⟩, ⟨test_completing _, by decide⟩, by decide⟩

theorem test_witness_Step8dAnswersTheDirectLoop :
    ((completing (coreOf 2) 0x61000100#32).Completing 0x61000100#32 ∧ opOf 0x61000100#32 = 6 ∧ chOf 0x61000100#32 ≠ 0) ∧
      ((completing (coreOf 2) 0x60FF0000#32).Completing 0x60FF0000#32 ∧ opOf 0x60FF0000#32 = 6 ∧ selOf 0x60FF0000#32 ≠ 0) ∧
      (opOf 0x6000FFFF#32 = 6 ∧ chOf 0x6000FFFF#32 = 0 ∧ selOf 0x6000FFFF#32 = 0) ∧ (0x00FF#16).toNat < 0x100 :=
  ⟨⟨test_completing _, by decide⟩, ⟨test_completing _, by decide⟩, by decide⟩

theorem test_witness_Step8rAnswersTheReflectedLoop :
    ((completing (coreOf 2) 0x7F000000#32).Completing 0x7F000000#32 ∧ opOf 0x7F000000#32 = 7 ∧ chOf 0x7F000000#32 ≠ 0) ∧
      ((completing (coreOf 2) 0x70010000#32).Completing 0x70010000#32 ∧ opOf 0x70010000#32 = 7 ∧ selOf 0x70010000#32 ≠ 0) ∧
      (opOf 0x7000FFFF#32 = 7 ∧ chOf 0x7000FFFF#32 = 0 ∧ selOf 0x7000FFFF#32 = 0) ∧ lowByte 0xFF00#16 = 0#8 :=
  ⟨⟨test_completing _, by decide⟩, ⟨test_completing _, by decide⟩, by decide⟩

theorem test_witness_Rev8AnswersTheReversedByte :
    ((completing (coreOf 2) 0x800001B0#32).Completing 0x800001B0#32 ∧ opOf 0x800001B0#32 = 8 ∧ dataHighOf 0x800001B0#32 ≠ 0) ∧
      ((completing (coreOf 2) 0x81000000#32).Completing 0x81000000#32 ∧ opOf 0x81000000#32 = 8 ∧ chOf 0x81000000#32 ≠ 0) ∧
      ((completing (coreOf 2) 0x80010000#32).Completing 0x80010000#32 ∧ opOf 0x80010000#32 = 8 ∧ selOf 0x80010000#32 ≠ 0) ∧
      opOf 0x800000FF#32 = 8 ∧ chOf 0x800000FF#32 = 0 ∧ selOf 0x800000FF#32 = 0 ∧ dataHighOf 0x800000FF#32 = 0 :=
  ⟨⟨test_completing _, by decide⟩, ⟨test_completing _, by decide⟩, ⟨test_completing _, by decide⟩, by decide⟩

theorem test_witness_Rev16AnswersTheReversedWord :
    ((completing (coreOf 2) 0x91000000#32).Completing 0x91000000#32 ∧ opOf 0x91000000#32 = 9 ∧ chOf 0x91000000#32 ≠ 0) ∧
      ((completing (coreOf 2) 0x90800000#32).Completing 0x90800000#32 ∧ opOf 0x90800000#32 = 9 ∧ selOf 0x90800000#32 ≠ 0) ∧
      opOf 0x9000FFFF#32 = 9 ∧ chOf 0x9000FFFF#32 = 0 ∧ selOf 0x9000FFFF#32 = 0 :=
  ⟨⟨test_completing _, by decide⟩, ⟨test_completing _, by decide⟩, by decide⟩

theorem test_witness_ReversalMirrorsTheBits : 7 < 8 ∧ 0 < 8 ∧ 15 < 16 := by decide

theorem test_witness_ZeroByteChangesEveryNonzeroAccumulator : 0x8003#16 ≠ 0#16 := by decide

theorem test_witness_NopAnswersAndDoesNothing :
    (completing (coreOf 2) 0x00000001#32).Completing 0x00000001#32 ∧ opOf 0x00000001#32 = 0 ∧ 0x00000001#32 ≠ 0x00000000#32 :=
  ⟨test_completing _, by decide⟩

theorem test_witness_StartOpensACall :
    15 < (coreOf 16).nch ∧ (coreOf 2).nch ≤ 2 ∧
      (opOf 0x1F040000#32 = 1 ∧ selOf 0x1F040000#32 = Variant.arc.code.toNat ∧ dataOf 0x1F040000#32 = 0) ∧
      ((completing (coreOf 2) 0x10050000#32).Completing 0x10050000#32 ∧ opOf 0x10050000#32 = 1 ∧ 4 < selOf 0x10050000#32) ∧
      (completing (coreOf 2) 0x100400FF#32).Completing 0x100400FF#32 ∧ opOf 0x100400FF#32 = 1 ∧ dataOf 0x100400FF#32 ≠ 0 :=
  ⟨by decide, by decide, by decide, ⟨test_completing _, by decide⟩, test_completing _, by decide⟩

theorem test_witness_FeedUpdatesTheAccumulator :
    ((openOne .dtb 0xFFFF#16).chan? 1 = some (.opened .dtb 0xFFFF#16) ∧ (openOne .dtb 0xFFFF#16).TablesBuilt) ∧
      (coreOf 2).chan? 1 = some .idle ∧ (coreOf 2).nch ≤ 2 ∧
      (opOf 0x2F0000FF#32 = 2 ∧ selOf 0x2F0000FF#32 = 0 ∧ dataHighOf 0x2F0000FF#32 = 0) ∧
      ((completing (coreOf 2) 0x20010031#32).Completing 0x20010031#32 ∧ opOf 0x20010031#32 = 2 ∧ selOf 0x20010031#32 ≠ 0) ∧
      (completing (coreOf 2) 0x20000131#32).Completing 0x20000131#32 ∧ opOf 0x20000131#32 = 2 ∧ dataHighOf 0x20000131#32 ≠ 0 :=
  ⟨⟨rfl, rfl, rfl⟩, rfl, by decide, by decide, ⟨test_completing _, by decide⟩, test_completing _, by decide⟩

theorem test_witness_FeedComputesTheModesUpdate : ∀ v : Variant,
    (openOne v 0xFFFF#16).TablesBuilt ∧ (openOne v 0xFFFF#16).chan? 1 = some (.opened v 0xFFFF#16) :=
  fun _ => ⟨⟨rfl, rfl⟩, rfl⟩

theorem test_witness_FinishAnswersTheChecksumAndCloses :
    (openOne .arc 0xBB3D#16).chan? 1 = some (.opened .arc 0xBB3D#16) ∧ (coreOf 2).chan? 1 = some .idle ∧
      (1 < (openOne .arc 0xBB3D#16).nch ∧ ∃ t, exec (.finish 1) (openOne .arc 0xBB3D#16) = .next t) ∧
      (coreOf 2).nch ≤ 2 ∧ (1 < (coreOf 2).nch ∧ ∃ t, exec (Instr.start .rtb 1) (coreOf 2) = .next t) ∧
      (opOf 0x3F000000#32 = 3 ∧ selOf 0x3F000000#32 = 0 ∧ dataOf 0x3F000000#32 = 0) ∧
      ((completing (coreOf 2) 0x30010000#32).Completing 0x30010000#32 ∧ opOf 0x30010000#32 = 3 ∧ selOf 0x30010000#32 ≠ 0) ∧
      (completing (coreOf 2) 0x30000001#32).Completing 0x30000001#32 ∧ opOf 0x30000001#32 = 3 ∧ dataOf 0x30000001#32 ≠ 0 :=
  ⟨rfl, rfl, ⟨by decide, _, rfl⟩, by decide, ⟨by decide, _, rfl⟩, by decide, ⟨test_completing _, by decide⟩,
    test_completing _, by decide⟩

theorem test_witness_StatAnswersTheOpenMask :
    ((completing (coreOf 2) 0x41000000#32).Completing 0x41000000#32 ∧ opOf 0x41000000#32 = 4 ∧ chOf 0x41000000#32 ≠ 0) ∧
      ((completing (coreOf 2) 0x40010000#32).Completing 0x40010000#32 ∧ opOf 0x40010000#32 = 4 ∧ selOf 0x40010000#32 ≠ 0) ∧
      ((completing (coreOf 2) 0x40008000#32).Completing 0x40008000#32 ∧ opOf 0x40008000#32 = 4 ∧ dataOf 0x40008000#32 ≠ 0) ∧
      15 < (coreOf 16).nch ∧ (coreOf 16).nch ≤ 16 :=
  ⟨⟨test_completing _, by decide⟩, ⟨test_completing _, by decide⟩, ⟨test_completing _, by decide⟩, by decide⟩

/-- Commands that bound no call on channel 1: a FEED to it, a FEED, START and FINISH elsewhere, a channel-free command. -/
def between : List Instr := [.feed 1 0x01#8, .startArc 0, .feed 0 0xFF#8, .finish 0, .stat, .feed 1 0x02#8]

theorem test_witness_InterleavedCallAnswersItsChecksum :
    (coreOf 2).TablesBuilt ∧ 1 < (coreOf 2).nch ∧ (∀ i ∈ between, boundsCall 1 i = false) ∧
      fedTo 1 between = [0x01#8, 0x02#8] :=
  ⟨⟨rfl, rfl⟩, by decide, by decide, by decide⟩

theorem test_witness_CallsDependOnTheirBytesOnly :
    (coreOf 2).TablesBuilt ∧ (coreOf 1).TablesBuilt ∧ 1 < (coreOf 2).nch ∧ 0 < (coreOf 1).nch ∧
      (∀ i ∈ between, boundsCall 1 i = false) ∧
      (∀ i ∈ [Instr.feed 0 0x01#8, .feed 0 0x02#8], boundsCall 0 i = false) ∧
      fedTo 1 between = fedTo 0 [Instr.feed 0 0x01#8, .feed 0 0x02#8] :=
  ⟨⟨rfl, rfl⟩, ⟨rfl, rfl⟩, by decide, by decide, by decide, by decide, by decide⟩

theorem test_witness_OpenFlagIsSetByStartAndClearedByFinish :
    ((∃ t, exec (.startDbs 1) (coreOf 2) = .next t) ∧ 1 < (coreOf 2).nch) ∧ (coreOf 2).isOpen 1 = false ∧
      (openOne .dbs 0x0001#16).td = (coreOf 2).td ∧ (openOne .dbs 0x0001#16).tr = (coreOf 2).tr ∧
      (openOne .dbs 0x0001#16).nch = (coreOf 2).nch ∧ Instr.nop ≠ .stat ∧ (∀ c b, Instr.nop ≠ .feed c b) ∧
      ∀ c, Instr.nop ≠ .finish c :=
  ⟨⟨⟨_, rfl⟩, by decide⟩, by decide, rfl, rfl, rfl, by decide, fun _ _ => nofun, fun _ => nofun⟩

theorem test_witness_CommandsTouchOnlyTheirChannel :
    (Instr.finish 1).channel? = some 1 ∧ (∃ t, exec (.finish 1) (openOne .dtb 0x80A5#16) = .next t) ∧ (0 : Nat) ≠ 1 ∧
      Instr.stat.channel? = none ∧ (∃ t, exec .stat (openOne .dtb 0x80A5#16) = .next t) ∧
      (openOne .dtb 0x80A5#16).chan? 1 = ((openOne .dtb 0x80A5#16).setChan 0 (.opened .arc 0#16)).chan? 1 ∧
      (openOne .dtb 0x80A5#16).td = ((openOne .dtb 0x80A5#16).setChan 0 (.opened .arc 0#16)).td ∧
      (openOne .dtb 0x80A5#16).tr = ((openOne .dtb 0x80A5#16).setChan 0 (.opened .arc 0#16)).tr :=
  ⟨rfl, ⟨_, rfl⟩, by decide, rfl, ⟨_, rfl⟩, rfl, rfl, rfl⟩

theorem test_witness_AccumulatorsAreReturnedByFinishOnly :
    (∀ c, Instr.feed 1 0x01#8 ≠ .finish c) ∧ (openOne .rbs 0x0001#16).td = (openOne .rbs 0xFFFF#16).td ∧
      (openOne .rbs 0x0001#16).tr = (openOne .rbs 0xFFFF#16).tr ∧
      (openOne .rbs 0x0001#16).chans.map modeOf = (openOne .rbs 0xFFFF#16).chans.map modeOf ∧
      (openOne .rbs 0x0001#16).chan? 1 ≠ (openOne .rbs 0xFFFF#16).chan? 1 :=
  ⟨fun _ => nofun, rfl, rfl, by decide, by decide⟩

theorem test_witness_CommandsKeepTheirFrame : (Instr.feed 1 0x01#8).channel? ≠ some 0 := by decide

theorem test_witness_ErrorsChangeNoState :
    (completing (coreOf 2) 0x21000031#32).Completing 0x21000031#32 ∧
      ∃ t, step (completing (coreOf 2) 0x21000031#32) = .next t ∧
        t.queue = (completing (coreOf 2) 0x21000031#32).queue ++ [⟨.notOpen, 0#16⟩] :=
  ⟨test_completing _, _, rfl, by decide⟩

theorem test_witness_ResetLeavesTheResetValues :
    (⟨1, ⟨1, true⟩⟩ : Config.Params).Legal ∧ (⟨16, ⟨8, false⟩⟩ : Config.Params).Legal ∧
      (building 256 false).readyO = false :=
  ⟨by decide, by decide, rfl⟩

theorem test_witness_AssertedResetClearsTheCore :
    ({ coreOf 2 with turns := [.rst true] } : State).turns = [.rst (coreOf 2).cfg.rstActive] ∧
      ((building 0 true).Inv ∧ (building 0 true).inReset = true ∧ ∃ t, step (building 0 true) = .next t) :=
  ⟨rfl, building_inv 0 true (by decide), by decide, _, rfl⟩

theorem test_witness_CommandsWaitUntilTheTablesAreBuilt :
    (building 256 false).Inv ∧ (building 256 false).readyO = false ∧ (building 256 false).inReset = false ∧
      (building 256 false).turns = [] ∧ ∃ t, step (building 256 false) = .next t := by
  exact ⟨building_inv 256 false (by decide), rfl, by decide, rfl, _, rfl⟩

/-- `coreOf 2` with its response queue full. -/
def full (turns : List Turn) : State :=
  { coreOf 2 with queue := [⟨.ok, 0x0001#16⟩, ⟨.ok, 0x0002#16⟩], cmds := [0x00000000#32], turns := turns }

theorem test_witness_FullQueueHoldsTheCore :
    (full [.core]).Inv ∧ (full [.core]).queue.length = (full [.core]).cfg.rspq ∧ (∃ t, step (full [.core]) = .next t) ∧
      (full [.core]).turns.head? ≠ some .take ∧ (∀ l, (full [.core]).turns.head? ≠ some (.rst l)) ∧
      (full []).Inv ∧ (full []).turns = [] :=
  ⟨built_inv rfl rfl rfl (by decide) (by decide), rfl, ⟨_, rfl⟩, by decide, by decide,
    built_inv rfl rfl rfl (by decide) (by decide), rfl⟩

theorem test_witness_ResetLosesTheCall :
    ({ openOne .dbs 0x0001#16 with turns := [.rst true] } : State).turns = [.rst (coreOf 2).cfg.rstActive] ∧
      1 < (openOne .dbs 0x0001#16).nch ∧ (coreOf 2).chan? 1 = ((openOne .dbs 0x0001#16).driveReset true).chan? 1 :=
  ⟨rfl, by decide, by decide⟩

/-- `coreOf 2` offered the words `ws`, with a schedule. -/
def offered (ws : List Cmd) (turns : List Turn) : State := { coreOf 2 with cmds := ws, turns := turns }

theorem test_witness_ResponsesLeaveInAcceptanceOrder :
    ((offered [0x40000000#32] []).Running ∧ (offered [0x40000000#32] []).inFlight = none ∧
        (offered [0x40000000#32] []).cmds = [0x40000000#32] ∧
        (offered [0x40000000#32] []).queue.length < (offered [0x40000000#32] []).cfg.rspq) ∧
      (completing (coreOf 2) 0x40000000#32).Completing 0x40000000#32 ∧
      ((full [.take]).turns = [.take] ∧ (full [.take]).inReset = false ∧ (full [.take]).queue.length = 2) ∧
      ∃ t, step (full [.take]) = .next t ∧ t.inReset = false :=
  ⟨⟨⟨rfl, by decide, rfl⟩, rfl, rfl, by decide⟩, test_completing _, ⟨rfl, by decide, rfl⟩, _, rfl, by decide⟩

theorem test_witness_CoreWithoutWorkIdles :
    State.reset.Inv ∧ State.reset.Running ∧ State.reset.inFlight = none ∧ State.reset.cmds = [] ∧
      State.reset.queue = [] :=
  ⟨built_inv rfl rfl rfl (by decide) (by decide), ⟨rfl, by decide, rfl⟩, rfl, rfl, rfl⟩

/-- `coreOf 2` with a turn of the core scheduled and `REV16 0xFFFF` in flight. -/
def turned : State := { coreOf 2 with turns := [.core, .take], inFlight := some 0x9000FFFF#32 }

theorem test_witness_StepRunsTheDecodedCommand :
    ((completing (coreOf 2) 0x1F040000#32).Completing 0x1F040000#32 ∧ decode 0x1F040000#32 = .ok (.startArc 15)) ∧
      turned.turns = [.core, .take] ∧ turned.inReset = false ∧ turned.built = true ∧
      turned.inFlight = some 0x9000FFFF#32 ∧ decode 0x9000FFFF#32 = .ok (.rev16 0xFFFF#16) :=
  ⟨⟨test_completing _, rfl⟩, rfl, by decide, rfl, rfl, rfl⟩

theorem test_witness_LoadedCommandRunsNext : (Instr.startArc 15).WellFormed := by decide

theorem test_witness_InvariantHoldsAfterReset :
    (⟨1, ⟨1, false⟩⟩ : Config.Params).Legal ∧ (⟨16, ⟨1, true⟩⟩ : Config.Params).Legal := by decide

theorem test_witness_EveryStepKeepsTheInvariant :
    (building 255 false).Inv ∧ (openOne .arc 0xFFFF#16).Inv ∧
      ∃ t, step (completing (openOne .arc 0xFFFF#16) 0x31000000#32) = .next t ∧
        (completing (openOne .arc 0xFFFF#16) 0x31000000#32).Inv :=
  ⟨building_inv 255 false (by decide), built_inv rfl rfl rfl (by decide) (by decide), _, rfl,
    built_inv rfl rfl rfl (by decide) (by decide)⟩

theorem test_witness_ServedStreamIsAnsweredWordForWord :
    (offered [0x00000000#32, 0xFFFFFFFF#32] (serveTurns 2)).Inv ∧
      (offered [0x00000000#32, 0xFFFFFFFF#32] (serveTurns 2)).inReset = false ∧
      (offered [0x00000000#32, 0xFFFFFFFF#32] (serveTurns 2)).readyO = true ∧
      (offered [0x00000000#32, 0xFFFFFFFF#32] (serveTurns 2)).inFlight = none ∧
      (offered [0x00000000#32, 0xFFFFFFFF#32] (serveTurns 2)).queue = [] ∧
      (offered [0x00000000#32, 0xFFFFFFFF#32] (serveTurns 2)).turns =
        serveTurns (offered [0x00000000#32, 0xFFFFFFFF#32] (serveTurns 2)).cmds.length :=
  ⟨built_inv rfl rfl rfl (by decide) (by decide), by decide, rfl, rfl, rfl, rfl⟩

theorem test_witness_ServedCallReturnsTheChecksum :
    (offered (AsmLine.crc 1 .arc [0xFF#8]).words (serveTurns 3)).Inv ∧
      (offered (AsmLine.crc 1 .arc [0xFF#8]).words (serveTurns 3)).inReset = false ∧
      (offered (AsmLine.crc 1 .arc [0xFF#8]).words (serveTurns 3)).readyO = true ∧
      (offered (AsmLine.crc 1 .arc [0xFF#8]).words (serveTurns 3)).inFlight = none ∧
      (offered (AsmLine.crc 1 .arc [0xFF#8]).words (serveTurns 3)).queue = [] ∧
      1 < (offered (AsmLine.crc 1 .arc [0xFF#8]).words (serveTurns 3)).nch ∧
      (offered (AsmLine.crc 1 .arc [0xFF#8]).words (serveTurns 3)).cmds = (AsmLine.crc 1 .arc [0xFF#8]).words ∧
      (offered (AsmLine.crc 1 .arc [0xFF#8]).words (serveTurns 3)).turns = serveTurns ([0xFF#8].length + 2) :=
  ⟨built_inv rfl rfl rfl (by decide) (by decide), by decide, rfl, rfl, rfl, by decide, rfl, rfl⟩

end Sys2Proof.Tests
end

section
/-! What one step does: the turn made, one case a line, and the invariant kept along it (10_state.md R31, R32, R37;
70_reset_and_hazards.md R180 to R182). -/

namespace Sys2Proof.Machine

open Sys2Proof

/-! ## What a completed word changes -/

/-- A command changes only the channels' contents and the queue, which gets one response more. -/
theorem resultOf_frame (i : Instr) (s : State) :
    ∃ (r : Response) (chans : List Channel), chans.length = s.chans.length ∧
      resultOf i s = { s with chans := chans, queue := s.queue ++ [r] } := by
  rcases resultOf_effect i s with ⟨e, d, h⟩ | ⟨c, ch, e, d, -, -, h⟩
  · exact ⟨⟨e, d⟩, s.chans, rfl, h⟩
  · exact ⟨⟨e, d⟩, s.chans.set c ch, List.length_set, h⟩

/-- So does completing a word, whether it decodes or not. -/
theorem runWord_frame (w : Cmd) (s : State) :
    ∃ (r : Response) (chans : List Channel), chans.length = s.chans.length ∧
      runWord w s = .next { s with chans := chans, queue := s.queue ++ [r] } := by
  rcases runWord_cases w s with ⟨_, _, h⟩ | ⟨i, _, h⟩
  · exact ⟨⟨.reserved, 0#16⟩, s.chans, rfl, h⟩
  · obtain ⟨r, chans, hlen, hres⟩ := resultOf_frame i s
    exact ⟨r, chans, hlen, by rw [h, hres]⟩

/-! ## What a turn does -/

/-- What the turn `u`, made in state `s`, can do, with the guard of each case. -/
inductive Move (s : State) : Turn → State → Prop
  | coreHeld (hr : s.inReset = true) : Move s .core s.clearByReset
  | build (hr : s.inReset = false) (hb : s.built = false) : Move s .core s.buildStep
  | accept (w : Cmd) (ws : List Cmd) (hr : s.inReset = false) (hb : s.built = true) (hf : s.inFlight = none)
      (hc : s.cmds = w :: ws) (hready : s.cmdReadyO = true) : Move s .core { s with cmds := ws, inFlight := some w }
  | wait (hr : s.inReset = false) (hb : s.built = true) (hf : s.inFlight = none)
      (hc : s.cmds = [] ∨ s.cmdReadyO = false) : Move s .core s
  | complete (w : Cmd) (t : State) (hr : s.inReset = false) (hb : s.built = true) (hf : s.inFlight = some w)
      (hrun : runWord w { s with inFlight := none } = .next t) : Move s .core t
  | offer (w : Cmd) : Move s (.offer w) (s.offerCmd w)
  | takeHeld (hr : s.inReset = true) : Move s .take s.clearByReset
  | takeNone (hr : s.inReset = false) (hq : s.queue = []) : Move s .take s
  | take (r : Response) (rs : List Response) (hr : s.inReset = false) (hq : s.queue = r :: rs) :
      Move s .take { s with queue := rs, taken := s.taken ++ [r] }
  | assertReset (level : Bool) (hl : level = s.cfg.rstActive) :
      Move s (.rst level) (State.clearByReset { s with rst := level })
  | release (level : Bool) (hl : level = !s.cfg.rstActive) : Move s (.rst level) { s with rst := level }

theorem coreMove_move {s t : State} (h : coreMove s = .next t) : Move s .core t := by
  rcases coreMove_cases s with ⟨hr, hm⟩ | ⟨hr, hb, hm⟩ | ⟨hr, hb, hf, hm⟩ | ⟨w, hr, hb, hf, hm⟩
  · cases hm.symm.trans h
    exact .coreHeld hr
  · cases hm.symm.trans h
    exact .build hr hb
  · cases hm.symm.trans h
    rcases s.acceptCmd_cases with ⟨w, ws, hc, hready, ha⟩ | ⟨hc, ha⟩
    · rw [ha]
      exact .accept w ws hr hb hf hc hready
    · rw [ha]
      exact .wait hr hb hf hc
  · exact .complete w t hr hb hf (hm.symm.trans h)

theorem takeMove_move (s : State) : Move s .take (takeMove s) := by
  unfold takeMove
  cases hr : s.inReset with
  | true => exact .takeHeld hr
  | false =>
    rcases s.takeRsp_cases with ⟨hq, ht⟩ | ⟨r, rs, hq, ht⟩
    · simpa [ht] using Move.takeNone hr hq
    · simpa [ht] using Move.take r rs hr hq

theorem driveReset_move (s : State) (level : Bool) : Move s (.rst level) (s.driveReset level) := by
  rcases s.driveReset_cases level with ⟨hl, h⟩ | ⟨hl, h⟩
  · rw [h]
    exact .assertReset level hl
  · rw [h]
    exact .release level hl

theorem takeTurn_move {s t : State} {u : Turn} (h : takeTurn u s = .next t) : Move s u t := by
  cases u with
  | core => exact coreMove_move h
  | offer w =>
    cases h
    exact .offer w
  | take =>
    cases h
    exact takeMove_move s
  | rst level =>
    cases h
    exact driveReset_move s level

/-- A step makes the first turn of the schedule, the core's where there is none (log 6). -/
theorem step_eq_takeTurn (s : State) :
    step s = takeTurn (s.turns.headD .core) { s with turns := s.turns.tail } := by
  rcases h : s.turns with _ | ⟨u, rest⟩
  · have hs : { s with turns := [] } = s := by rw [← h]
    exact (step_of_no_turns h).trans (congrArg coreMove hs.symm)
  · exact step_of_turn h

/-- What a step does: one of the cases of `Move`. -/
theorem step_move {s t : State} (h : step s = .next t) :
    Move { s with turns := s.turns.tail } (s.turns.headD .core) t :=
  takeTurn_move (step_eq_takeTurn s ▸ h)

/-! ## The invariant -/

/-- The invariant does not speak of the schedule. -/
theorem State.Inv.withTurns {s : State} (h : s.Inv) (turns : List Turn) : State.Inv { s with turns := turns } where
  __ := h

/-- A reset core with legal parameters meets the invariant, whatever it was doing. -/
theorem State.clearByReset_inv {s : State} (hpos : 1 ≤ s.nch) (hle : s.nch ≤ Config.maxChannels)
    (hq : 1 ≤ s.cfg.rspq) : s.clearByReset.Inv where
  nch_pos := s.clearByReset_nch.symm ▸ hpos
  nch_le := s.clearByReset_nch.symm ▸ hle
  rspq_pos := hq
  room := Nat.zero_le _
  td_len := Nat.zero_le _
  tr_len := Nat.zero_le _
  td_entries := rfl
  tr_entries := rfl
  td_built := nofun
  tr_built := nofun
  unbuilt_queue _ := rfl
  unbuilt_inFlight _ := rfl
  unbuilt_idle _ := by simp
  reset_unbuilt _ := rfl

/-- A table of 256 entries that begins the rules' table is the rules' table. -/
theorem eq_builtTable_of_length {l : List Word} {t : TableSel} (h : l = builtEntries t l.length)
    (hle : l.length ≤ Config.tblN) (hge : 256 ≤ l.length) : l = builtTable t := by
  have hlen : l.length = Config.tblN := Nat.le_antisymm hle hge
  rw [h, hlen, builtTable]

/-- The builder's move keeps the invariant, out of reset (R86). -/
theorem State.Inv.buildStep {s : State} (h : s.Inv) (hr : s.inReset = false) (hb : s.built = false) :
    s.buildStep.Inv := by
  obtain ⟨htd, htr⟩ := s.buildStep_keeps_table_form h.td_entries h.tr_entries
  rcases s.buildStep_cases with ⟨hlt, heq⟩ | ⟨-, hlt, heq⟩ | ⟨hgd, hgr, heq⟩
  · rw [heq] at htd htr ⊢
    exact { h with
      td_len := by rw [List.length_append]; exact hlt
      td_entries := htd
      td_built := fun hb' => absurd (hb.symm.trans hb') (by decide) }
  · rw [heq] at htd htr ⊢
    exact { h with
      tr_len := by rw [List.length_append]; exact hlt
      tr_entries := htr
      tr_built := fun hb' => absurd (hb.symm.trans hb') (by decide) }
  · rw [heq]
    exact { h with
      td_built := fun _ => eq_builtTable_of_length h.td_entries h.td_len hgd
      tr_built := fun _ => eq_builtTable_of_length h.tr_entries h.tr_len hgr
      unbuilt_queue := nofun
      unbuilt_inFlight := nofun
      unbuilt_idle := nofun
      reset_unbuilt := fun hr' => absurd (hr.symm.trans hr') (by decide) }

/-- A built core keeps the invariant when its channels, queue, and command in flight change within their bounds: the
tables are whole and stay. -/
theorem State.Inv.ofBuilt {s : State} (h : s.Inv) (hb : s.built = true) {chans : List Channel} {inFlight : Option Cmd}
    {queue : List Response} {cmds : List Cmd} (hlen : chans.length = s.chans.length)
    (hroom : queue.length + inFlight.toList.length ≤ s.cfg.rspq) :
    State.Inv { s with chans := chans, inFlight := inFlight, queue := queue, cmds := cmds } :=
  { h with
    nch_pos := h.nch_pos.trans_eq hlen.symm
    nch_le := hlen.trans_le h.nch_le
    room := hroom
    unbuilt_queue := fun hb' => absurd (hb.symm.trans hb') (by decide)
    unbuilt_inFlight := fun hb' => absurd (hb.symm.trans hb') (by decide)
    unbuilt_idle := fun hb' => absurd (hb.symm.trans hb') (by decide) }

/-- When `cmd_ready_o = 1` (R36, R180). -/
theorem State.cmdReadyO_eq_true {s : State} :
    s.cmdReadyO = true ↔
      s.inReset = false ∧ s.built = true ∧ s.inFlight = none ∧ s.queue.length < s.cfg.rspq := by
  simp [State.cmdReadyO, and_assoc]

/-- Taking the front response keeps the invariant. -/
theorem State.Inv.take {s : State} (h : s.Inv) {r : Response} {rs : List Response} (hq : s.queue = r :: rs) :
    State.Inv { s with queue := rs, taken := s.taken ++ [r] } :=
  have hroom := h.room
  { h with
    room := by
      rw [hq, List.length_cons] at hroom
      exact le_trans (by simp) hroom
    unbuilt_queue := fun hb => absurd (hq.symm.trans (h.unbuilt_queue hb)) nofun }

/-- Every turn keeps the invariant. -/
theorem Move.keeps_inv {s t : State} {u : Turn} (m : Move s u t) (h : s.Inv) : t.Inv := by
  cases m with
  | coreHeld hr => exact State.clearByReset_inv h.nch_pos h.nch_le h.rspq_pos
  | takeHeld hr => exact State.clearByReset_inv h.nch_pos h.nch_le h.rspq_pos
  | assertReset level hl => exact State.clearByReset_inv h.nch_pos h.nch_le h.rspq_pos
  | build hr hb => exact h.buildStep hr hb
  | accept w ws hr hb hf hc hready =>
    obtain ⟨-, -, -, hroom⟩ := State.cmdReadyO_eq_true.mp hready
    exact h.ofBuilt hb rfl hroom
  | wait hr hb hf hc => exact h
  | complete w t hr hb hf hrun =>
    obtain ⟨r, chans, hlen, hres⟩ := runWord_frame w { s with inFlight := none }
    cases hres.symm.trans hrun
    have hroom := h.room
    rw [hf] at hroom
    exact h.ofBuilt hb hlen (by simpa using hroom)
  | offer w => exact { h with }
  | takeNone hr hq => exact h
  | take r rs hr hq => exact h.take hq
  | release level hl => exact { h with reset_unbuilt := fun hr => absurd hr (by simp [State.inReset, hl]) }

/-- Settles O53, turn by turn. -/
theorem everyStepKeepsTheInvariant : Obligations.EveryStepKeepsTheInvariant := by
  intro s t h hstep
  exact (step_move hstep).keeps_inv (h.withTurns _)

/-- Settles O52: the reset state is built, with whole tables, and nothing in progress. -/
theorem invariantHoldsAfterReset : Obligations.InvariantHoldsAfterReset := by
  intro p hp
  obtain ⟨hpos, hle, hq⟩ := hp
  have hnch : (State.resetWith p).nch = p.nch := List.length_replicate
  exact {
    nch_pos := hnch.symm ▸ hpos
    nch_le := hnch.symm ▸ hle
    rspq_pos := hq
    room := Nat.zero_le _
    td_len := (length_builtEntries .direct _).le
    tr_len := (length_builtEntries .reflected _).le
    td_entries := by simp [State.resetWith, builtTable]
    tr_entries := by simp [State.resetWith, builtTable]
    td_built := fun _ => rfl
    tr_built := fun _ => rfl
    unbuilt_queue := nofun
    unbuilt_inFlight := nofun
    unbuilt_idle := nofun
    reset_unbuilt := fun hr => absurd hr (by simp [State.inReset, State.resetWith]) }

end Sys2Proof.Machine
end

section
/-! The reset values and the order of the responses (10_state.md R34, R36, R37). -/

namespace Sys2Proof.Machine

open Sys2Proof

/-! ## Reset values -/

/-- Every entry of a built table reads as the rules give it (R84, R85). -/
theorem resetWith_tblRead (p : Config.Params) (t : TableSel) (i : Byte) :
    (State.resetWith p).tblRead t i = tableEntry t i := by
  have htable : (State.resetWith p).table t = builtTable t := by cases t <;> rfl
  simp [State.tblRead, htable, getElem?_builtTable]

theorem resetWith_chan? (p : Config.Params) (c : Nat) (h : c < p.nch) :
    (State.resetWith p).chan? c = some .idle := by
  simp [State.chan?, State.resetWith, h]

theorem resetWith_cmdReadyO (p : Config.Params) (h : 1 ≤ p.build.rspq) :
    (State.resetWith p).cmdReadyO = true := by
  exact State.cmdReadyO_eq_true.mpr ⟨by simp [State.inReset, State.resetWith], rfl, rfl, h⟩

/-- Asserting `rst` resets the core (R180). -/
theorem State.driveReset_assert (s : State) :
    s.driveReset s.cfg.rstActive = State.clearByReset { s with rst := s.cfg.rstActive } := by
  simp [State.driveReset]

/-- A core that is not ready accepts no command (R182). -/
theorem State.cmdReadyO_of_not_readyO {s : State} (h : s.readyO = false) : s.cmdReadyO = false := by
  refine Bool.eq_false_iff.mpr fun hready => ?_
  obtain ⟨-, hb, -, -⟩ := State.cmdReadyO_eq_true.mp hready
  exact absurd (h.symm.trans hb) (by decide)

/-- Settles O42, field by field. -/
theorem resetLeavesTheResetValues : Obligations.ResetLeavesTheResetValues := by
  refine ⟨fun p hp => ?_, fun s => ?_, fun s => State.cmdReadyO_of_not_readyO⟩
  · obtain ⟨-, -, hq⟩ := hp
    exact ⟨fun i => ⟨resetWith_tblRead p .direct i, resetWith_tblRead p .reflected i⟩, List.length_replicate,
      resetWith_chan? p, rfl, rfl, resetWith_cmdReadyO p hq, rfl⟩
  · rw [s.driveReset_assert]
    exact ⟨rfl, rfl⟩

/-! ## The order of the responses -/

/-- A running core with nothing in flight and room in the queue accepts the first word offered (R36). -/
theorem step_accepts {s : State} {w : Cmd} {ws : List Cmd} (hrun : s.Running) (hf : s.inFlight = none)
    (hc : s.cmds = w :: ws) (hq : s.queue.length < s.cfg.rspq) :
    step s = .next { s with cmds := ws, inFlight := some w } := by
  have hready : s.cmdReadyO = true := State.cmdReadyO_eq_true.mpr ⟨hrun.reset, hrun.built, hf, hq⟩
  simp [step_of_no_turns hrun.turns, coreMove, hrun.reset, hrun.built, hf, State.acceptCmd, hc, hready]

/-- Out of reset the host's move takes the front response (R36). -/
theorem takeMove_of_cons {s : State} {r : Response} {rs : List Response} (hr : s.inReset = false)
    (hq : s.queue = r :: rs) : takeMove s = { s with queue := rs, taken := s.taken ++ [r] } := by
  simp [takeMove, hr, State.takeRsp, hq]

theorem step_takes {s : State} {rest : List Turn} {r : Response} {rs : List Response}
    (hu : s.turns = .take :: rest) (hr : s.inReset = false) (hq : s.queue = r :: rs) :
    step s = .next { s with turns := rest, queue := rs, taken := s.taken ++ [r] } :=
  (step_of_turn hu).trans (congrArg Host.Outcome.next (takeMove_of_cons (s := { s with turns := rest }) hr hq))

/-- Outside reset a turn keeps the responses, taken and queued, in their order, or is the completion of the command in
flight, which appends one (R37). -/
theorem Move.responses {s t : State} {u : Turn} (m : Move s u t) (hs : s.inReset = false) (ht : t.inReset = false) :
    t.taken ++ t.queue = s.taken ++ s.queue ∨
      ∃ (w : Cmd) (r : Response), s.inFlight = some w ∧ t.inFlight = none ∧
        t.taken ++ t.queue = s.taken ++ s.queue ++ [r] := by
  cases m with
  | coreHeld hr => exact absurd (hs.symm.trans hr) (by decide)
  | takeHeld hr => exact absurd (hs.symm.trans hr) (by decide)
  | assertReset level hl => exact absurd ht (by simp [State.inReset, hl])
  | build hr hb =>
    left
    rcases s.buildStep_cases with ⟨-, h⟩ | ⟨-, -, h⟩ | ⟨-, -, h⟩ <;> rw [h]
  | accept w ws hr hb hf hc hready => exact .inl rfl
  | wait hr hb hf hc => exact .inl rfl
  | complete w t hr hb hf hrun =>
    obtain ⟨r, chans, -, hres⟩ := runWord_frame w { s with inFlight := none }
    cases hres.symm.trans hrun
    exact .inr ⟨w, r, hf, rfl, (List.append_assoc _ _ _).symm⟩
  | offer w => exact .inl rfl
  | takeNone hr hq => exact .inl rfl
  | take r rs hr hq => exact .inl (by simp [hq])
  | release level hl => exact .inl rfl

/-- Settles O47: acceptance, completion, the host's take, and every other step outside reset. -/
theorem responsesLeaveInAcceptanceOrder : Obligations.ResponsesLeaveInAcceptanceOrder := by
  refine ⟨fun s w ws => step_accepts, fun s w hw => ?_, fun s rest r rs => step_takes,
    fun s t hstep => (step_move hstep).responses⟩
  obtain ⟨r, chans, -, hres⟩ := runWord_frame w { s with inFlight := none }
  exact ⟨_, r, (step_of_completing hw).trans hres, rfl, rfl, rfl, rfl⟩

end Sys2Proof.Machine
end

section
/-! What commands read and write of the channels: the `OPEN` flags, the modes and the accumulators (10_state.md R22,
R24). -/

namespace Sys2Proof.Machine

open Sys2Proof

/-! ## Kinds of command -/

/-- A command opens, feeds or finishes a call, or names no channel. -/
theorem instr_kinds (i : Instr) :
    (∃ v c, i = .start v c) ∨ (∃ c b, i = .feed c b) ∨ (∃ c, i = .finish c) ∨ i.channel? = none := by
  cases i with
  | startDbs c => exact .inl ⟨.dbs, c, rfl⟩
  | startDtb c => exact .inl ⟨.dtb, c, rfl⟩
  | startRbs c => exact .inl ⟨.rbs, c, rfl⟩
  | startRtb c => exact .inl ⟨.rtb, c, rfl⟩
  | startArc c => exact .inl ⟨.arc, c, rfl⟩
  | feed c b => exact .inr (.inl ⟨c, b, rfl⟩)
  | finish c => exact .inr (.inr (.inl ⟨c, rfl⟩))
  | _ => exact .inr (.inr (.inr rfl))

@[simp] theorem start_channel? (v : Variant) (c : Nat) : (Instr.start v c).channel? = some c := by
  cases v <;> rfl

@[simp] theorem start_startVariant? (v : Variant) (c : Nat) : (Instr.start v c).startVariant? = some v := by
  cases v <;> rfl

@[simp] theorem resultOf_start (v : Variant) (c : Nat) (s : State) :
    resultOf (Instr.start v c) s = s.startCall v c := by
  cases v <;> rfl

@[simp] theorem resultOf_feed (c : Nat) (b : Byte) (s : State) : resultOf (.feed c b) s = s.feedCall c b := rfl

@[simp] theorem resultOf_finish (c : Nat) (s : State) : resultOf (.finish c) s = s.finishCall c := rfl

/-- A command that names no channel only answers. -/
theorem resultOf_of_no_channel {i : Instr} (h : i.channel? = none) (s : State) :
    ∃ e d, resultOf i s = s.respond e d := by
  rcases resultOf_effect i s with hres | ⟨c, _, _, _, hc, _⟩
  · exact hres
  · exact absurd (h.symm.trans hc) nofun

/-! ## The `OPEN` flags -/

theorem State.isOpen_eq_any (s : State) (c : Nat) : s.isOpen c = (s.chan? c).any Channel.isOpen := by
  unfold State.isOpen
  cases s.chan? c <;> rfl

@[simp] theorem State.respond_isOpen (s : State) (e : ErrCode) (d : Word) (c : Nat) :
    (s.respond e d).isOpen c = s.isOpen c := rfl

@[simp] theorem State.raise_isOpen (s : State) (e : ErrCode) (c : Nat) : (s.raise e).isOpen c = s.isOpen c := rfl

/-- Writing a channel the core has sets its flag and leaves the others. -/
theorem State.setChan_isOpen {s : State} {c : Nat} (hc : c < s.nch) (ch : Channel) (k : Nat) :
    (s.setChan c ch).isOpen k = if c = k then ch.isOpen else s.isOpen k := by
  rw [State.isOpen_eq_any, State.isOpen_eq_any]
  split
  next h =>
    subst h
    rw [State.setChan_chan?_self s c ch hc, Option.any_some]
  next h => rw [State.setChan_chan?_other s c k ch (Ne.symm h)]

/-- START sets the flag of its channel (R142). -/
theorem State.startCall_isOpen (s : State) (v : Variant) {c k : Nat} (hk : k < s.nch) :
    (s.startCall v c).isOpen k = if c = k then true else s.isOpen k := by
  rcases Nat.lt_or_ge c s.nch with hc | hc
  · rw [s.startCall_of_lt v c hc, State.respond_isOpen, State.setChan_isOpen hc, Channel.isOpen]
  · rw [s.startCall_of_ge v c hc, State.raise_isOpen, if_neg (by omega)]

/-- FEED leaves the flags (R144). -/
theorem State.feedCall_isOpen (s : State) (c : Nat) (b : Byte) (k : Nat) :
    (s.feedCall c b).isOpen k = s.isOpen k := by
  rcases h : s.chan? c with _ | _ | ⟨v, a⟩
  · rw [s.feedCall_of_ge c b ((s.chan?_eq_none c).mp h), State.raise_isOpen]
  · rw [State.feedCall_of_idle b h, State.raise_isOpen]
  · rw [State.feedCall_of_opened b h, State.respond_isOpen, State.setChan_isOpen (State.lt_nch_of_chan? h)]
    split
    next hk =>
      subst hk
      rw [State.isOpen_eq_any, h]
      rfl
    next => rfl

/-- FINISH clears the flag of its channel (R146). -/
theorem State.finishCall_isOpen (s : State) {c k : Nat} (hk : k < s.nch) :
    (s.finishCall c).isOpen k = if c = k then false else s.isOpen k := by
  rcases h : s.chan? c with _ | _ | ⟨v, a⟩
  · have hc : s.nch ≤ c := (s.chan?_eq_none c).mp h
    rw [s.finishCall_of_ge c hc, State.raise_isOpen, if_neg (by omega)]
  · rw [State.finishCall_of_idle h, State.raise_isOpen]
    split
    next hk =>
      subst hk
      rw [State.isOpen_eq_any, h]
      rfl
    next => rfl
  · rw [State.finishCall_of_opened h, State.respond_isOpen, State.setChan_isOpen (State.lt_nch_of_chan? h),
      Channel.isOpen]

/-- What each command does to the flags (R24). -/
theorem resultOf_isOpen (i : Instr) (s : State) {k : Nat} (hk : k < s.nch) :
    (resultOf i s).isOpen k = if i.channel? = some k ∧ i.startVariant?.isSome then true
      else if i = .finish k then false else s.isOpen k := by
  rcases instr_kinds i with ⟨v, c, rfl⟩ | ⟨c, b, rfl⟩ | ⟨c, rfl⟩ | hi
  · have hfinish : Instr.start v c ≠ .finish k := by cases v <;> nofun
    simp [s.startCall_isOpen v hk, hfinish]
  · simp [s.feedCall_isOpen, Instr.startVariant?]
  · simp [s.finishCall_isOpen hk, Instr.startVariant?]
  · obtain ⟨e, d, hres⟩ := resultOf_of_no_channel hi s
    have hfinish : i ≠ .finish k := by rintro rfl; cases hi
    simp [hres, hi, hfinish]

/-- Reset clears every flag (R180). -/
theorem State.clearByReset_isOpen (s : State) (c : Nat) : s.clearByReset.isOpen c = false := by
  rcases Nat.lt_or_ge c s.nch with hc | hc
  · rw [State.isOpen_eq_any, s.clearByReset_chan? c hc]
    rfl
  · rw [State.isOpen_eq_any, (s.clearByReset.chan?_eq_none c).mpr (by simpa using hc)]
    rfl

/-- A channel the core has and whose flag is 0 is idle. -/
theorem State.chan?_eq_idle {s : State} {c : Nat} (hc : c < s.nch) (h : s.isOpen c = false) :
    s.chan? c = some .idle := by
  rw [State.isOpen_eq_any] at h
  rcases hch : s.chan? c with _ | _ | ⟨v, a⟩
  · exact absurd ((s.chan?_eq_none c).mp hch) (by omega)
  · rfl
  · rw [hch] at h
    cases h

theorem getLsbD_one_shiftLeft (j : Nat) {k : Nat} (hk : k < 16) : (1#16 <<< j).getLsbD k = decide (k = j) := by
  rw [BitVec.getLsbD_shiftLeft, BitVec.getLsbD_one, Bool.eq_iff_iff]
  simp only [Bool.and_eq_true, Bool.not_eq_true', decide_eq_true_eq, decide_eq_false_iff_not]
  omega

/-- The bits of a mask that begins at channel `j` (R148). -/
theorem getLsbD_openMaskFrom (l : List Channel) (j : Nat) {k : Nat} (hk : k < 16) :
    (openMaskFrom j l).getLsbD k = (decide (j ≤ k) && (l[k - j]?).any Channel.isOpen) := by
  induction l generalizing j with
  | nil => simp [openMaskFrom]
  | cons ch rest ih =>
    have hbit : (if ch.isOpen then 1#16 <<< j else 0#16).getLsbD k = (ch.isOpen && decide (k = j)) := by
      cases ch.isOpen <;> simp [getLsbD_one_shiftLeft j hk]
    rw [openMaskFrom, BitVec.getLsbD_or, hbit, ih]
    rcases lt_trichotomy k j with h | rfl | h
    · simp [show k ≠ j by omega, show ¬ j + 1 ≤ k by omega, show ¬ j ≤ k by omega]
    · simp
    · obtain ⟨n, rfl⟩ := Nat.exists_eq_add_of_lt h
      simp [show j + n + 1 ≠ j by omega, show j + n + 1 - j = n + 1 by omega,
        show j + n + 1 - (j + 1) = n by omega, show j ≤ j + n + 1 by omega]

/-- Bit `k` of the mask STAT answers is `OPEN[k]` (R148). -/
theorem State.getLsbD_openMask (s : State) {k : Nat} (hk : k < 16) : s.openMask.getLsbD k = s.isOpen k := by
  rw [State.openMask, getLsbD_openMaskFrom s.chans 0 hk, State.isOpen_eq_any]
  simp [State.chan?]

/-! ## What an answer depends on -/

/-- From `s` to `t` and from `s'` to `t'` one response is added, the same in both. -/
def SameAnswer (s s' t t' : State) : Prop :=
  ∃ r : Response, t.queue = s.queue ++ [r] ∧ t'.queue = s'.queue ++ [r]

/-- `START` answers by the number of channels alone. -/
theorem startCall_sameAnswer {s s' : State} (v : Variant) (c : Nat) (hn : s.nch = s'.nch) :
    SameAnswer s s' (s.startCall v c) (s'.startCall v c) := by
  rcases Nat.lt_or_ge c s.nch with hc | hc
  · rw [s.startCall_of_lt v c hc, s'.startCall_of_lt v c (hn ▸ hc)]
    exact ⟨_, rfl, rfl⟩
  · rw [s.startCall_of_ge v c hc, s'.startCall_of_ge v c (hn ▸ hc)]
    exact ⟨_, rfl, rfl⟩

theorem State.tblRead_congr {s s' : State} (hd : s.td = s'.td) (hr : s.tr = s'.tr) (t : TableSel) (i : Byte) :
    s.tblRead t i = s'.tblRead t i := by
  have htable : s.table t = s'.table t := by cases t <;> assumption
  rw [State.tblRead, State.tblRead, htable]

/-- A command that names no channel, other than STAT, answers by the tables alone. -/
theorem resultOf_congr_of_no_channel {i : Instr} {s s' : State} (hi : i.channel? = none) (hstat : i ≠ .stat)
    (hd : s.td = s'.td) (hr : s.tr = s'.tr) :
    ∃ e d, resultOf i s = s.respond e d ∧ resultOf i s' = s'.respond e d := by
  cases i with
  | nop => exact ⟨_, _, rfl, rfl⟩
  | stat => exact absurd rfl hstat
  | tblrdD i => exact ⟨_, _, rfl, by rw [State.tblRead_congr hd hr]; rfl⟩
  | tblrdR i => exact ⟨_, _, rfl, by rw [State.tblRead_congr hd hr]; rfl⟩
  | step8d w => exact ⟨_, _, rfl, rfl⟩
  | step8r w => exact ⟨_, _, rfl, rfl⟩
  | rev8 x => exact ⟨_, _, rfl, rfl⟩
  | rev16 w => exact ⟨_, _, rfl, rfl⟩
  | _ => cases hi

/-- The commands other than STAT, FEED and FINISH answer by the tables and the number of channels alone. -/
theorem resultOf_sameAnswer {i : Instr} {s s' : State} (hstat : i ≠ .stat) (hfeed : ∀ c b, i ≠ .feed c b)
    (hfinish : ∀ c, i ≠ .finish c) (hd : s.td = s'.td) (hr : s.tr = s'.tr) (hn : s.nch = s'.nch) :
    SameAnswer s s' (resultOf i s) (resultOf i s') := by
  rcases instr_kinds i with ⟨v, c, rfl⟩ | ⟨c, b, rfl⟩ | ⟨c, rfl⟩ | hi
  · simpa using startCall_sameAnswer v c hn
  · exact absurd rfl (hfeed c b)
  · exact absurd rfl (hfinish c)
  · obtain ⟨e, d, h, h'⟩ := resultOf_congr_of_no_channel hi hstat hd hr
    exact ⟨⟨e, d⟩, by rw [h, State.respond_queue], by rw [h', State.respond_queue]⟩

/-- Settles O37: writers of the flag, reset, the two readers that raise E_NOT_OPEN, STAT, and all others. -/
theorem openFlagIsSetByStartAndClearedByFinish : Obligations.OpenFlagIsSetByStartAndClearedByFinish := by
  refine ⟨fun i s t c hexec hc => ?_, fun s c => ?_, fun s c b hc hopen => ?_, fun s => ?_,
    fun i s s' hstat hfeed hfinish hd hr hn => ?_⟩
  · cases (exec_eq_next i s).symm.trans hexec
    exact resultOf_isOpen i s hc
  · rw [s.driveReset_assert, State.clearByReset_isOpen]
  · have hidle := State.chan?_eq_idle hc hopen
    exact ⟨congrArg Host.Outcome.next (State.feedCall_of_idle b hidle),
      congrArg Host.Outcome.next (State.finishCall_of_idle hidle)⟩
  · exact ⟨s.openMask, rfl, fun k hk => s.getLsbD_openMask hk⟩
  · obtain ⟨r, h, h'⟩ := resultOf_sameAnswer hstat hfeed hfinish hd hr hn
    exact ⟨_, _, r, exec_eq_next i s, exec_eq_next i s', h, h'⟩

/-! ## Accumulators are hidden -/

/-- The modes of a state's channels, in order: all it shows of them but the accumulators. -/
def State.modes (s : State) : List (Option Variant) := s.chans.map modeOf

@[simp] theorem State.respond_modes (s : State) (e : ErrCode) (d : Word) : (s.respond e d).modes = s.modes := rfl

@[simp] theorem State.raise_modes (s : State) (e : ErrCode) : (s.raise e).modes = s.modes := rfl

@[simp] theorem State.setChan_modes (s : State) (c : Nat) (ch : Channel) :
    (s.setChan c ch).modes = s.modes.set c (modeOf ch) := by
  simp [State.modes, List.map_set]

@[simp] theorem State.length_modes (s : State) : s.modes.length = s.nch := List.length_map _

theorem State.getElem?_modes (s : State) (c : Nat) : s.modes[c]? = (s.chan? c).map modeOf := List.getElem?_map

/-- A channel is open exactly when it has a mode. -/
theorem isSome_modeOf (ch : Channel) : (modeOf ch).isSome = ch.isOpen := by
  cases ch <;> rfl

section
variable {s s' : State} (hm : s.modes = s'.modes)
include hm

theorem State.nch_eq_of_modes : s.nch = s'.nch := by
  rw [← s.length_modes, hm, s'.length_modes]

theorem State.chan?_modeOf_eq_of_modes (c : Nat) : (s.chan? c).map modeOf = (s'.chan? c).map modeOf := by
  rw [← s.getElem?_modes, hm, s'.getElem?_modes]

theorem State.isOpen_eq_of_modes (c : Nat) : s.isOpen c = s'.isOpen c := by
  have hany (u : State) : u.isOpen c = ((u.chan? c).map modeOf).any Option.isSome := by
    rw [u.isOpen_eq_any, Option.any_map]
    congr 1
    exact funext fun ch => (isSome_modeOf ch).symm
  rw [hany, hany, State.chan?_modeOf_eq_of_modes hm]

theorem State.openMask_eq_of_modes : s.openMask = s'.openMask :=
  BitVec.eq_of_getLsbD_eq fun k hk => by
    rw [s.getLsbD_openMask hk, s'.getLsbD_openMask hk, State.isOpen_eq_of_modes hm]

/-- START leaves the same modes. -/
theorem startCall_modes (v : Variant) (c : Nat) : (s.startCall v c).modes = (s'.startCall v c).modes := by
  have hn := State.nch_eq_of_modes hm
  rcases Nat.lt_or_ge c s.nch with hc | hc
  · simp [s.startCall_of_lt v c hc, s'.startCall_of_lt v c (hn ▸ hc), hm]
  · simp [s.startCall_of_ge v c hc, s'.startCall_of_ge v c (hn ▸ hc), hm]

/-- FEED answers by the mode of its channel alone, and leaves the same modes. -/
theorem feedCall_sameAnswer_modes (c : Nat) (b : Byte) :
    SameAnswer s s' (s.feedCall c b) (s'.feedCall c b) ∧ (s.feedCall c b).modes = (s'.feedCall c b).modes := by
  have hch := State.chan?_modeOf_eq_of_modes hm c
  rcases h : s.chan? c with _ | _ | ⟨v, a⟩ <;> rcases h' : s'.chan? c with _ | _ | ⟨v', a'⟩ <;>
    simp only [h, h', modeOf, Option.map_none, Option.map_some, reduceCtorEq, Option.some.injEq] at hch
  · rw [s.feedCall_of_ge c b ((s.chan?_eq_none c).mp h), s'.feedCall_of_ge c b ((s'.chan?_eq_none c).mp h')]
    exact ⟨⟨_, rfl, rfl⟩, hm⟩
  · rw [State.feedCall_of_idle b h, State.feedCall_of_idle b h']
    exact ⟨⟨_, rfl, rfl⟩, hm⟩
  · subst hch
    rw [State.feedCall_of_opened b h, State.feedCall_of_opened b h']
    exact ⟨⟨_, rfl, rfl⟩, by simp [hm, modeOf]⟩

/-- No command but FINISH answers by an accumulator, and the modes it leaves do not depend on one (R22). -/
theorem resultOf_sameAnswer_modes {i : Instr} (hfinish : ∀ c, i ≠ .finish c) (hd : s.td = s'.td)
    (hr : s.tr = s'.tr) :
    SameAnswer s s' (resultOf i s) (resultOf i s') ∧ (resultOf i s).modes = (resultOf i s').modes := by
  rcases instr_kinds i with ⟨v, c, rfl⟩ | ⟨c, b, rfl⟩ | ⟨c, rfl⟩ | hi
  · simpa using ⟨startCall_sameAnswer v c (State.nch_eq_of_modes hm), startCall_modes hm v c⟩
  · exact feedCall_sameAnswer_modes hm c b
  · exact absurd rfl (hfinish c)
  · have hres : ∃ e d, resultOf i s = s.respond e d ∧ resultOf i s' = s'.respond e d := by
      by_cases hstat : i = .stat
      · subst hstat
        exact ⟨.ok, s.openMask, rfl, by rw [State.openMask_eq_of_modes hm]; rfl⟩
      · exact resultOf_congr_of_no_channel hi hstat hd hr
    obtain ⟨e, d, h, h'⟩ := hres
    rw [h, h']
    exact ⟨⟨⟨e, d⟩, rfl, rfl⟩, hm⟩

end

/-- Settles O39, command by command. -/
theorem accumulatorsAreReturnedByFinishOnly : Obligations.AccumulatorsAreReturnedByFinishOnly := by
  intro i s s' hfinish hd hr hm
  obtain ⟨⟨r, h, h'⟩, hmodes⟩ := resultOf_sameAnswer_modes hm hfinish hd hr
  exact ⟨_, _, r, exec_eq_next i s, exec_eq_next i s', h, h', hmodes⟩

end Sys2Proof.Machine
end

section
/-! The tables are the builder's, and a channel is its own commands' (20_memory.md R42, R51). -/

namespace Sys2Proof.Machine

open Sys2Proof

/-! ## The tables -/

/-- No command writes a table (R42). -/
theorem resultOf_tblRead (i : Instr) (s : State) (sel : TableSel) (k : Byte) :
    (resultOf i s).tblRead sel k = s.tblRead sel k := by
  obtain ⟨r, chans, -, h⟩ := resultOf_frame i s
  exact State.tblRead_congr (by rw [h]) (by rw [h]) sel k

/-- A turn that starts and ends with `ready_o = 1` is neither the builder's nor a reset, and leaves the tables (R42). -/
theorem Move.keeps_tables {s t : State} {u : Turn} (m : Move s u t) (hs : s.readyO = true) (ht : t.readyO = true) :
    t.td = s.td ∧ t.tr = s.tr := by
  cases m with
  | coreHeld hr => cases ht
  | takeHeld hr => cases ht
  | assertReset level hl => cases ht
  | build hr hb => exact absurd (hb.symm.trans hs) (by decide)
  | complete w t hr hb hf hrun =>
    obtain ⟨r, chans, -, hres⟩ := runWord_frame w { s with inFlight := none }
    cases hres.symm.trans hrun
    exact ⟨rfl, rfl⟩
  | accept w ws hr hb hf hc hready => exact ⟨rfl, rfl⟩
  | wait hr hb hf hc => exact ⟨rfl, rfl⟩
  | offer w => exact ⟨rfl, rfl⟩
  | takeNone hr hq => exact ⟨rfl, rfl⟩
  | take r rs hr hq => exact ⟨rfl, rfl⟩
  | release level hl => exact ⟨rfl, rfl⟩

/-- Settles O14: the commands, and then the turns of a core that stays ready. -/
theorem noCommandWritesATable : Obligations.NoCommandWritesATable := by
  refine ⟨fun i s t hexec sel k => ?_, fun s t hstep hs ht sel k => ?_⟩
  · cases (exec_eq_next i s).symm.trans hexec
    exact resultOf_tblRead i s sel k
  · obtain ⟨htd, htr⟩ := (step_move hstep).keeps_tables hs ht
    exact State.tblRead_congr htd htr sel k

/-! ## The channels -/

/-- A command leaves every channel it does not name (R51). -/
theorem resultOf_chan?_other {i : Instr} {c c' : Nat} (hi : i.channel? = some c) (hne : c' ≠ c) (s : State) :
    (resultOf i s).chan? c' = s.chan? c' := by
  rcases resultOf_effect i s with ⟨e, d, h⟩ | ⟨k, ch, e, d, hk, -, h⟩
  · rw [h, State.respond_chan?]
  · cases hi.symm.trans hk
    rw [h, State.respond_chan?, s.setChan_chan?_other c c' ch hne]

/-- A written channel holds what was written, if the core has it at all. -/
theorem State.setChan_chan?_eq_map (s : State) (c : Nat) (ch : Channel) :
    (s.setChan c ch).chan? c = (s.chan? c).map fun _ => ch :=
  List.getElem?_set_self'

/-- The update of a mode reads the tables alone. -/
theorem State.upd_congr {s s' : State} (hd : s.td = s'.td) (hr : s.tr = s'.tr) (v : Variant) (a : Word) (b : Byte) :
    s.upd v a b = s'.upd v a b := by
  have hread (sel : TableSel) : s.tblRead sel = s'.tblRead sel := funext (State.tblRead_congr hd hr sel)
  rw [State.upd, State.upd, hread, hread]

/-- From `s` to `t` and from `s'` to `t'` the same is answered, and the same is written to channel `c`, if anything. -/
inductive SameEffect (c : Nat) (s s' : State) : State → State → Prop
  | answer (e : ErrCode) (d : Word) : SameEffect c s s' (s.respond e d) (s'.respond e d)
  | write (ch : Channel) (e : ErrCode) (d : Word) :
      SameEffect c s s' ((s.setChan c ch).respond e d) ((s'.setChan c ch).respond e d)

theorem SameEffect.sameAnswer {c : Nat} {s s' t t' : State} (h : SameEffect c s s' t t') : SameAnswer s s' t t' := by
  cases h with
  | answer e d => exact ⟨⟨e, d⟩, rfl, rfl⟩
  | write ch e d => exact ⟨⟨e, d⟩, rfl, rfl⟩

section
variable {c : Nat} {s s' : State} (hch : s.chan? c = s'.chan? c)
include hch

theorem SameEffect.chan?_eq {t t' : State} (h : SameEffect c s s' t t') : t.chan? c = t'.chan? c := by
  cases h with
  | answer e d => exact hch
  | write ch e d =>
    rw [State.respond_chan?, State.respond_chan?, State.setChan_chan?_eq_map, State.setChan_chan?_eq_map, hch]

/-- START reads of the channel only that the core has it. -/
theorem startCall_sameEffect (v : Variant) : SameEffect c s s' (s.startCall v c) (s'.startCall v c) := by
  rcases h : s.chan? c with _ | ch
  · rw [s.startCall_of_ge v c ((s.chan?_eq_none c).mp h),
      s'.startCall_of_ge v c ((s'.chan?_eq_none c).mp (hch ▸ h))]
    exact .answer _ _
  · rw [s.startCall_of_lt v c (State.lt_nch_of_chan? h), s'.startCall_of_lt v c (State.lt_nch_of_chan? (hch ▸ h))]
    exact .write _ _ _

/-- FEED reads its channel and the tables. -/
theorem feedCall_sameEffect (hd : s.td = s'.td) (hr : s.tr = s'.tr) (b : Byte) :
    SameEffect c s s' (s.feedCall c b) (s'.feedCall c b) := by
  rcases h : s.chan? c with _ | _ | ⟨v, a⟩
  · rw [s.feedCall_of_ge c b ((s.chan?_eq_none c).mp h), s'.feedCall_of_ge c b ((s'.chan?_eq_none c).mp (hch ▸ h))]
    exact .answer _ _
  · rw [State.feedCall_of_idle b h, State.feedCall_of_idle b (hch ▸ h)]
    exact .answer _ _
  · rw [State.feedCall_of_opened b h, State.feedCall_of_opened b (hch ▸ h), State.upd_congr hd hr]
    exact .write _ _ _

/-- FINISH reads its channel alone. -/
theorem finishCall_sameEffect : SameEffect c s s' (s.finishCall c) (s'.finishCall c) := by
  rcases h : s.chan? c with _ | _ | ⟨v, a⟩
  · rw [s.finishCall_of_ge c ((s.chan?_eq_none c).mp h), s'.finishCall_of_ge c ((s'.chan?_eq_none c).mp (hch ▸ h))]
    exact .answer _ _
  · rw [State.finishCall_of_idle h, State.finishCall_of_idle (hch ▸ h)]
    exact .answer _ _
  · rw [State.finishCall_of_opened h, State.finishCall_of_opened (hch ▸ h)]
    exact .write _ _ _

/-- What a command does on the channel it names depends on that channel and the tables alone (R51). -/
theorem resultOf_sameEffect {i : Instr} (hi : i.channel? = some c) (hd : s.td = s'.td) (hr : s.tr = s'.tr) :
    SameEffect c s s' (resultOf i s) (resultOf i s') := by
  rcases instr_kinds i with ⟨v, k, rfl⟩ | ⟨k, b, rfl⟩ | ⟨k, rfl⟩ | hnone
  · cases (start_channel? v k).symm.trans hi
    rw [resultOf_start, resultOf_start]
    exact startCall_sameEffect hch v
  · cases hi
    exact feedCall_sameEffect hch hd hr b
  · cases hi
    exact finishCall_sameEffect hch
  · exact absurd (hnone.symm.trans hi) nofun

end

/-- Settles O38: the other channels, the commands that name none, and the named channel. -/
theorem commandsTouchOnlyTheirChannel : Obligations.CommandsTouchOnlyTheirChannel := by
  refine ⟨fun i c s t hi hexec c' hne => ?_, fun i s t hi hexec => ?_, fun i c s s' hi hd hr hch => ?_⟩
  · cases (exec_eq_next i s).symm.trans hexec
    exact resultOf_chan?_other hi hne s
  · cases (exec_eq_next i s).symm.trans hexec
    obtain ⟨e, d, h⟩ := resultOf_of_no_channel hi s
    rw [h, State.respond_chans]
  · have heffect := resultOf_sameEffect hch hi hd hr
    obtain ⟨r, h, h'⟩ := heffect.sameAnswer
    exact ⟨_, _, r, exec_eq_next i s, exec_eq_next i s', h, h', heffect.chan?_eq hch⟩

end Sys2Proof.Machine
end

section
/-! The decoder and the encoder are inverse: what one command's fields are, and which fields decode (30_encoding.md R60,
R62 to R64). -/

namespace Sys2Proof

open Sys2Proof.Machine

/-! ## Decoding and encoding are inverse -/

/-- A command with neither channel nor selector (R60). -/
theorem Fields.plain_iff {f : Fields} : f.plain = true ↔ f.ch = 0#4 ∧ f.sel = 0#8 := by
  simp [Fields.plain]

/-- `DATA` with high byte 0 carries exactly its byte operand (R60). -/
theorem Fields.byteData_byte {f : Fields} (h : f.byteOk = true) : byteData f.byte = f.data :=
  byteData_of_high (by simpa [Fields.byteOk] using h)

/-- Every channel number a word carries fits (R62). -/
theorem channelFits_toNat (c : BitVec 4) : channelFits c.toNat = true :=
  decide_eq_true c.isLt

/-- The fields of a well-formed command select its row, with its operands. -/
theorem decodeFields_fields {i : Instr} (h : i.WellFormed) : decodeFields i.fields = .ok i := by
  cases i with
  | nop => rfl
  | startDbs c => exact decodeStart_eq_ok.mpr ⟨rfl, .dbs, rfl, congrArg _ (toNat_ofNat_channel h).symm⟩
  | startDtb c => exact decodeStart_eq_ok.mpr ⟨rfl, .dtb, rfl, congrArg _ (toNat_ofNat_channel h).symm⟩
  | startRbs c => exact decodeStart_eq_ok.mpr ⟨rfl, .rbs, rfl, congrArg _ (toNat_ofNat_channel h).symm⟩
  | startRtb c => exact decodeStart_eq_ok.mpr ⟨rfl, .rtb, rfl, congrArg _ (toNat_ofNat_channel h).symm⟩
  | startArc c => exact decodeStart_eq_ok.mpr ⟨rfl, .arc, rfl, congrArg _ (toNat_ofNat_channel h).symm⟩
  | feed c b =>
    exact guardField_eq_ok.mpr ⟨by simp [Instr.fields, Fields.byteOk],
      congrArg₂ _ (toNat_ofNat_channel h) (extractLsb'_byteData b)⟩
  | finish c => exact guardField_eq_ok.mpr ⟨rfl, congrArg _ (toNat_ofNat_channel h)⟩
  | stat => rfl
  | tblrdD i =>
    exact decodeTblrd_eq_ok.mpr ⟨rfl, by simp [Instr.fields, Fields.byteOk],
      .inl ⟨rfl, congrArg _ (extractLsb'_byteData i).symm⟩⟩
  | tblrdR i =>
    exact decodeTblrd_eq_ok.mpr ⟨rfl, by simp [Instr.fields, Fields.byteOk],
      .inr ⟨rfl, congrArg _ (extractLsb'_byteData i).symm⟩⟩
  | step8d w => rfl
  | step8r w => rfl
  | rev8 x =>
    exact guardField_eq_ok.mpr ⟨by simp [Instr.fields, Fields.byteOk, Fields.plain],
      congrArg _ (extractLsb'_byteData x)⟩
  | rev16 w => rfl

/-- The fields of a START command (R63). -/
theorem Instr.fields_start (v : Variant) (c : Nat) :
    (Instr.start v c).fields = ⟨1#4, BitVec.ofNat 4 c, v.code.zeroExtend 8, 0#16⟩ := by
  cases v <;> rfl

theorem Instr.wf_start (v : Variant) (c : Nat) : (Instr.start v c).wf = channelFits c := by
  cases v <;> rfl

/-- A command has the fields `f` where each of its four fields is that of `f`. -/
theorem Fields.eq_mk {f : Fields} {o c : BitVec 4} {s : BitVec 8} {d : BitVec 16} (hop : f.op = o) (hch : f.ch = c)
    (hsel : f.sel = s) (hdata : f.data = d) : (⟨o, c, s, d⟩ : Fields) = f := by
  rw [← hop, ← hch, ← hsel, ← hdata]

/-- Fields that decode are those of the command they decode to, and that command is well-formed. -/
theorem wellFormed_fields_of_decodeFields {f : Fields} {i : Instr} (h : decodeFields f = .ok i) :
    i.WellFormed ∧ i.fields = f := by
  have hch : f.ch = BitVec.ofNat 4 f.ch.toNat := eq_ofNat_of_toNat rfl
  unfold decodeFields at h
  split at h
  case h_2 hop =>
    obtain ⟨hd, v, hs, rfl⟩ := decodeStart_eq_ok.mp h
    exact ⟨(Instr.wf_start v _).trans (channelFits_toNat f.ch),
      (Instr.fields_start v _).trans (Fields.eq_mk (eq_ofNat_of_toNat hop) hch hs hd)⟩
  case h_6 hop =>
    obtain ⟨hc, hb, ⟨hs, rfl⟩ | ⟨hs, rfl⟩⟩ := decodeTblrd_eq_ok.mp h
    · exact ⟨rfl, Fields.eq_mk (eq_ofNat_of_toNat hop) hc hs (Fields.byteData_byte hb).symm⟩
    · exact ⟨rfl, Fields.eq_mk (eq_ofNat_of_toNat hop) hc hs (Fields.byteData_byte hb).symm⟩
  case h_11 => cases h
  all_goals
    obtain ⟨hg, rfl⟩ := guardField_eq_ok.mp h
    simp only [Bool.and_eq_true, beq_iff_eq, Fields.plain_iff] at hg
  case h_1 hop =>
    obtain ⟨⟨hc, hs⟩, hd⟩ := hg
    exact ⟨rfl, Fields.eq_mk (eq_ofNat_of_toNat hop) hc hs hd⟩
  case h_3 hop =>
    obtain ⟨hs, hb⟩ := hg
    exact ⟨channelFits_toNat f.ch, Fields.eq_mk (eq_ofNat_of_toNat hop) hch hs (Fields.byteData_byte hb).symm⟩
  case h_4 hop =>
    obtain ⟨hs, hd⟩ := hg
    exact ⟨channelFits_toNat f.ch, Fields.eq_mk (eq_ofNat_of_toNat hop) hch hs hd⟩
  case h_5 hop =>
    obtain ⟨⟨hc, hs⟩, hd⟩ := hg
    exact ⟨rfl, Fields.eq_mk (eq_ofNat_of_toNat hop) hc hs hd⟩
  case h_9 hop =>
    obtain ⟨⟨hc, hs⟩, hb⟩ := hg
    exact ⟨rfl, Fields.eq_mk (eq_ofNat_of_toNat hop) hc hs (Fields.byteData_byte hb).symm⟩
  all_goals obtain ⟨hc, hs⟩ := hg
  case h_7 hop => exact ⟨rfl, Fields.eq_mk (eq_ofNat_of_toNat hop) hc hs rfl⟩
  case h_8 hop => exact ⟨rfl, Fields.eq_mk (eq_ofNat_of_toNat hop) hc hs rfl⟩
  case h_10 hop => exact ⟨rfl, Fields.eq_mk (eq_ofNat_of_toNat hop) hc hs rfl⟩

/-- Settles O2, by the fields of each command. -/
theorem decodeInvertsEncode : Obligations.DecodeInvertsEncode := by
  intro i h
  rw [decode_encode_eq, decodeFields_fields h]

/-- Settles O3, from the fields that decode. -/
theorem encodeInvertsDecode : Obligations.EncodeInvertsDecode := by
  intro w i h
  obtain ⟨hwf, hf⟩ := wellFormed_fields_of_decodeFields h
  exact ⟨hwf, by rw [encode, hf, Fields.toWord_ofWord]⟩

/-- Settles O1, word by word. -/
theorem oneWordOfEveryRowDecodes : Obligations.OneWordOfEveryRowDecodes :=
  ⟨rfl, rfl, rfl, rfl, rfl, rfl, rfl, rfl, rfl, rfl, rfl, rfl, rfl, rfl, rfl⟩

end Sys2Proof
end

section
/-! The opcode map: which row a word selects, read off its fields (30_encoding.md R62 to R66). -/

namespace Sys2Proof

open Sys2Proof.Machine

/-- The mask of a command's row, field by field: the `CH` bits count where the command names no channel, and of the
`DATA` bits all, the high byte or none, as `DATA` carries nothing, a byte or a word (R63). -/
def Instr.rowMask : Instr → Fields
  | .nop | .stat => ⟨.allOnes 4, .allOnes 4, .allOnes 8, .allOnes 16⟩
  | .startDbs _ | .startDtb _ | .startRbs _ | .startRtb _ | .startArc _ | .finish _ =>
    ⟨.allOnes 4, 0#4, .allOnes 8, .allOnes 16⟩
  | .feed _ _ => ⟨.allOnes 4, 0#4, .allOnes 8, 0xFF00#16⟩
  | .tblrdD _ | .tblrdR _ | .rev8 _ => ⟨.allOnes 4, .allOnes 4, .allOnes 8, 0xFF00#16⟩
  | .step8d _ | .step8r _ | .rev16 _ => ⟨.allOnes 4, .allOnes 4, .allOnes 8, 0#16⟩

/-- The row of a command: its mask, and as its match the command's `OP` and `SEL` (R63). -/
theorem Instr.row_eq (i : Instr) :
    i.row = ⟨i.rowMask.toWord, Fields.toWord ⟨i.fields.op, 0#4, i.fields.sel, 0#16⟩⟩ := by
  cases i <;> simp only [Instr.row, Instr.rowMask, Instr.fields] <;> decide

/-- `OP` and `SEL` count in every row. -/
theorem Instr.rowMask_op (i : Instr) : i.rowMask.op = .allOnes 4 := by
  cases i <;> rfl

theorem Instr.rowMask_sel (i : Instr) : i.rowMask.sel = .allOnes 8 := by
  cases i <;> rfl

/-- Masking a word masks its fields. -/
theorem Fields.ofWord_and (w v : Cmd) :
    Fields.ofWord (w &&& v) =
      ⟨(Fields.ofWord w).op &&& (Fields.ofWord v).op, (Fields.ofWord w).ch &&& (Fields.ofWord v).ch,
        (Fields.ofWord w).sel &&& (Fields.ofWord v).sel, (Fields.ofWord w).data &&& (Fields.ofWord v).data⟩ := by
  simp only [Fields.ofWord, BitVec.extractLsb'_and]

/-- A word selects a command's row field by field (R63). -/
theorem Instr.selects_row_iff {i : Instr} {w : Cmd} :
    i.row.selects w = true ↔
      (Fields.ofWord w).op = i.fields.op ∧ (Fields.ofWord w).ch &&& i.rowMask.ch = 0#4 ∧
        (Fields.ofWord w).sel = i.fields.sel ∧ (Fields.ofWord w).data &&& i.rowMask.data = 0#16 := by
  have hinj (v u : Cmd) : v = u ↔ Fields.ofWord v = Fields.ofWord u := ⟨congrArg _, Fields.ofWord_inj⟩
  rw [OpcodeRow.selects, beq_iff_eq, Instr.row_eq, hinj, Fields.ofWord_and]
  simp only [Fields.ofWord_toWord, Instr.rowMask_op, Instr.rowMask_sel, BitVec.and_allOnes, Fields.mk.injEq]

/-- The mask `0xFF00` keeps the high byte of `DATA`. -/
theorem byteOk_of_and_highMask {f : Fields} (h : f.data &&& 0xFF00#16 = 0#16) : f.byteOk = true := by
  have hmask (x : BitVec 8) : x &&& 255#8 = x := BitVec.and_allOnes
  have hhigh := congrArg (BitVec.extractLsb' 8 8) h
  simpa [Fields.byteOk, BitVec.extractLsb'_and, hmask] using hhigh

/-- Fields decode to the well-formed command whose fields they are. -/
theorem decodeFields_of_fields_eq {f : Fields} {i : Instr} (hwf : i.WellFormed) (hf : i.fields = f) :
    decodeFields f = .ok i :=
  hf ▸ decodeFields_fields hwf

/-- The fields of START decode to the START of their channel. -/
theorem decodeFields_of_start {f : Fields} (v : Variant) (hop : f.op = 1#4) (hsel : f.sel = v.code.zeroExtend 8)
    (hdata : f.data = 0#16) : decodeFields f = .ok (.start v f.ch.toNat) :=
  decodeFields_of_fields_eq ((Instr.wf_start v _).trans (channelFits_toNat _))
    ((Instr.fields_start v _).trans (Fields.eq_mk hop (eq_ofNat_of_toNat rfl) hsel hdata))

/-- A word that selects a command's row decodes to a command of that row. -/
theorem exists_decode_of_selects {w : Cmd} {j : Instr} (h : j.row.selects w = true) :
    ∃ i, decode w = .ok i ∧ i.row = j.row := by
  obtain ⟨hop, hc, hs, hd⟩ := Instr.selects_row_iff.mp h
  unfold decode
  generalize Fields.ofWord w = f at *
  have hch : f.ch = BitVec.ofNat 4 f.ch.toNat := eq_ofNat_of_toNat rfl
  have hbyte (h : f.data &&& 0xFF00#16 = 0#16) : f.data = byteData f.byte :=
    (Fields.byteData_byte (byteOk_of_and_highMask h)).symm
  cases j <;> simp only [Instr.rowMask, BitVec.and_allOnes] at hc hd
  case nop => exact ⟨.nop, decodeFields_of_fields_eq rfl (Fields.eq_mk hop hc hs hd), rfl⟩
  case startDbs => exact ⟨_, decodeFields_of_start .dbs hop hs hd, rfl⟩
  case startDtb => exact ⟨_, decodeFields_of_start .dtb hop hs hd, rfl⟩
  case startRbs => exact ⟨_, decodeFields_of_start .rbs hop hs hd, rfl⟩
  case startRtb => exact ⟨_, decodeFields_of_start .rtb hop hs hd, rfl⟩
  case startArc => exact ⟨_, decodeFields_of_start .arc hop hs hd, rfl⟩
  case feed =>
    exact ⟨.feed _ _, decodeFields_of_fields_eq (channelFits_toNat _) (Fields.eq_mk hop hch hs (hbyte hd)), rfl⟩
  case finish =>
    exact ⟨.finish _, decodeFields_of_fields_eq (channelFits_toNat _) (Fields.eq_mk hop hch hs hd), rfl⟩
  case stat => exact ⟨.stat, decodeFields_of_fields_eq rfl (Fields.eq_mk hop hc hs hd), rfl⟩
  case tblrdD => exact ⟨.tblrdD _, decodeFields_of_fields_eq rfl (Fields.eq_mk hop hc hs (hbyte hd)), rfl⟩
  case tblrdR => exact ⟨.tblrdR _, decodeFields_of_fields_eq rfl (Fields.eq_mk hop hc hs (hbyte hd)), rfl⟩
  case step8d => exact ⟨.step8d _, decodeFields_of_fields_eq rfl (Fields.eq_mk hop hc hs rfl), rfl⟩
  case step8r => exact ⟨.step8r _, decodeFields_of_fields_eq rfl (Fields.eq_mk hop hc hs rfl), rfl⟩
  case rev8 => exact ⟨.rev8 _, decodeFields_of_fields_eq rfl (Fields.eq_mk hop hc hs (hbyte hd)), rfl⟩
  case rev16 => exact ⟨.rev16 _, decodeFields_of_fields_eq rfl (Fields.eq_mk hop hc hs rfl), rfl⟩

theorem exists_decode_of_selects_mem {w : Cmd} {r : OpcodeRow} (hr : r ∈ opcodeRows) (h : r.selects w = true) :
    ∃ i, decode w = .ok i ∧ i.row = r := by
  obtain ⟨j, -, rfl⟩ := List.mem_map.mp hr
  exact exists_decode_of_selects h

/-- Every command stands in a row of the opcode map. -/
theorem Instr.row_mem (i : Instr) : i.row ∈ opcodeRows := by
  cases i <;> simp [opcodeRows, rowSamples, Instr.row]

/-- The word of a well-formed command selects the command's row. -/
theorem selects_row_encode (i : Instr) (h : i.WellFormed) : i.row.selects (encode i) = true := by
  cases i with
  | nop => exact Laws.RowMatch.nop h
  | startDbs c => exact Laws.RowMatch.startDbs c h
  | startDtb c => exact Laws.RowMatch.startDtb c h
  | startRbs c => exact Laws.RowMatch.startRbs c h
  | startRtb c => exact Laws.RowMatch.startRtb c h
  | startArc c => exact Laws.RowMatch.startArc c h
  | feed c b => exact Laws.RowMatch.feed c b h
  | finish c => exact Laws.RowMatch.finish c h
  | stat => exact Laws.RowMatch.stat h
  | tblrdD k => exact Laws.RowMatch.tblrdD k h
  | tblrdR k => exact Laws.RowMatch.tblrdR k h
  | step8d v => exact Laws.RowMatch.step8d v h
  | step8r v => exact Laws.RowMatch.step8r v h
  | rev8 x => exact Laws.RowMatch.rev8 x h
  | rev16 v => exact Laws.RowMatch.rev16 v h

@[simp] theorem ofWord_encode (i : Instr) : Fields.ofWord (encode i) = i.fields := Fields.ofWord_toWord _

@[simp] theorem extractLsb'_ch_encode (i : Instr) : (encode i).extractLsb' 24 4 = i.fields.ch :=
  congrArg Fields.ch (ofWord_encode i)

@[simp] theorem extractLsb'_data_encode (i : Instr) : (encode i).extractLsb' 0 16 = i.fields.data :=
  congrArg Fields.data (ofWord_encode i)

@[simp] theorem extractLsb'_byte_encode (i : Instr) :
    (encode i).extractLsb' 0 8 = i.fields.data.extractLsb' 0 8 := by
  rw [← extractLsb'_dataLow, extractLsb'_data_encode]

/-- The operands of a well-formed command are the fields of its word (R62). -/
theorem operandsFrom_encode (i : Instr) (h : i.WellFormed) : operandsFrom (encode i) i := by
  cases i <;> simp only [operandsFrom, extractLsb'_ch_encode, extractLsb'_data_encode, extractLsb'_byte_encode,
    Instr.fields, extractLsb'_byteData, and_true]
  case startDbs | startDtb | startRbs | startRtb | startArc | feed | finish => exact (toNat_ofNat_channel h).symm

/-- A command names a channel exactly when its `OP` is that of START, FEED or FINISH, and then its `CH` field (R62). -/
theorem Instr.channel?_eq {i : Instr} (h : i.WellFormed) :
    i.channel? = if i.fields.op.toNat ∈ [1, 2, 3] then some i.fields.ch.toNat else none := by
  cases i
  case startDbs | startDtb | startRbs | startRtb | startArc | feed | finish =>
    exact congrArg some (toNat_ofNat_channel h).symm
  all_goals rfl

/-- What a word that decodes says: its command is well-formed and stands in the row the word selects, and its operands
and its channel are the word's fields. -/
theorem decode_spec {w : Cmd} {i : Instr} (h : decode w = .ok i) :
    i.WellFormed ∧ encode i = w ∧ i.row.selects w = true ∧ operandsFrom w i ∧
      i.channel? = if opOf w ∈ [1, 2, 3] then some (chOf w) else none := by
  obtain ⟨hwf, rfl⟩ := encodeInvertsDecode w i h
  refine ⟨hwf, rfl, selects_row_encode i hwf, operandsFrom_encode i hwf, ?_⟩
  rw [opOf_eq, chOf_eq, ofWord_encode, Instr.channel?_eq hwf]

/-- Settles O4: the rows, the row and operands of a decoded word, and no row but the decoded command's. -/
theorem wordSelectsTheRowOfTheOpcodeMap : Obligations.WordSelectsTheRowOfTheOpcodeMap := by
  refine ⟨rfl, fun w i h => ?_, fun w e h r hr => ?_, fun w r q hr hq hrw hqw => ?_⟩
  · obtain ⟨-, -, hsel, hops, -⟩ := decode_spec h
    exact ⟨i.row_mem, hsel, hops⟩
  · by_contra hsel
    obtain ⟨i, hi, -⟩ := exists_decode_of_selects_mem hr (Bool.eq_true_of_not_eq_false hsel)
    cases h.symm.trans hi
  · obtain ⟨i, hi, rfl⟩ := exists_decode_of_selects_mem hr hrw
    obtain ⟨j, hj, rfl⟩ := exists_decode_of_selects_mem hq hqw
    cases hi.symm.trans hj
    rfl

theorem decodeCommand_of_error {w : Cmd} {e : DecodeError} (h : decode w = .error e) (nch : Nat) :
    decodeCommand nch w = .error .reserved := by
  simp only [decodeCommand, h]

/-- A word that decodes passes the channel check unless it names a channel the core does not have (R64). -/
theorem decodeCommand_of_ok {w : Cmd} {i : Instr} (h : decode w = .ok i) (nch : Nat) :
    decodeCommand nch w = if opOf w ∈ [1, 2, 3] ∧ nch ≤ chOf w then .error .channel else .ok i := by
  obtain ⟨-, -, -, -, hch⟩ := decode_spec h
  simp only [decodeCommand, h, hch]
  by_cases hop : opOf w ∈ [1, 2, 3]
  · by_cases hlt : chOf w < nch <;> simp [hop, hlt]
  · simp [hop]

/-- Settles O5: a word with no row, a channel the core does not have, and every other word. -/
theorem decodingChecksTheRowThenTheChannel : Obligations.DecodingChecksTheRowThenTheChannel := by
  refine fun nch w => ⟨fun hnone => ?_, fun ⟨r, hr, hsel⟩ hop hch => ?_, fun ⟨r, hr, hsel⟩ hok => ?_⟩
  · cases h : decode w with
    | error e => exact decodeCommand_of_error h nch
    | ok i =>
      obtain ⟨-, -, hsel, -, -⟩ := decode_spec h
      cases (hnone _ i.row_mem).symm.trans hsel
  · obtain ⟨i, hi, -⟩ := exists_decode_of_selects_mem hr hsel
    rw [decodeCommand_of_ok hi, if_pos ⟨hop, hch⟩]
  · obtain ⟨i, hi, rfl⟩ := exists_decode_of_selects_mem hr hsel
    obtain ⟨-, -, -, hops, -⟩ := decode_spec hi
    exact ⟨i, by rw [decodeCommand_of_ok hi, if_neg hok], hsel, hops⟩

/-! ## Reserved words -/

theorem dataHighOf_encode (i : Instr) : dataHighOf (encode i) = (i.fields.data.extractLsb' 8 8).toNat := by
  rw [dataHighOf, ← extractLsb'_dataHigh, extractLsb'_data_encode]

/-- The word of a command has an assigned opcode and no field outside its row. -/
theorem encode_not_reserved (i : Instr) : opOf (encode i) < 10 ∧ ¬ fieldOutsideRow (encode i) := by
  simp only [fieldOutsideRow, opOf_eq, chOf_eq, selOf_eq, dataOf_eq, dataHighOf_encode, ofWord_encode]
  cases i <;> simp [Instr.fields]

/-- START is refused for its `DATA`, or for a variant code of 5 or more (R66). -/
theorem decodeStart_eq_error {f : Fields} {e : DecodeError} (h : decodeStart f = .error e) :
    f.data ≠ 0#16 ∨ 5 ≤ f.sel.toNat := by
  by_cases hd : f.data = 0#16
  · rw [decodeStart, if_pos (beq_iff_eq.mpr hd)] at h
    split at h
    case h_6 =>
      simp only [imp_false] at *
      omega
    all_goals cases h
  · exact .inl hd

/-- TBLRD is refused for its `CH`, for the high byte of its `DATA`, or for a table code of 2 or more (R66). -/
theorem decodeTblrd_eq_error {f : Fields} {e : DecodeError} (h : decodeTblrd f = .error e) :
    f.ch ≠ 0#4 ∨ f.byteOk = false ∨ 2 ≤ f.sel.toNat := by
  rw [decodeTblrd] at h
  split at h
  · split at h
    case h_3 =>
      simp only [imp_false] at *
      omega
    all_goals cases h
  case isFalse hg =>
    rw [Bool.and_eq_true, beq_iff_eq, not_and_or, Bool.not_eq_true] at hg
    exact hg.imp_right .inl

theorem chOf_eq_zero {w : Cmd} : chOf w = 0 ↔ (Fields.ofWord w).ch = 0#4 := (BitVec.toNat_eq (y := 0#4)).symm

theorem selOf_eq_zero {w : Cmd} : selOf w = 0 ↔ (Fields.ofWord w).sel = 0#8 := (BitVec.toNat_eq (y := 0#8)).symm

theorem dataOf_eq_zero {w : Cmd} : dataOf w = 0 ↔ (Fields.ofWord w).data = 0#16 := (BitVec.toNat_eq (y := 0#16)).symm

theorem dataHighOf_eq_zero {w : Cmd} : dataHighOf w = 0 ↔ (Fields.ofWord w).byteOk = true := by
  rw [dataHighOf, ← extractLsb'_dataHigh, Fields.byteOk, beq_iff_eq]
  exact (BitVec.toNat_eq (y := 0#8)).symm

/-- A word that does not decode has a reserved opcode, or a field outside its opcode's rows (R65, R66). -/
theorem reserved_of_decode_eq_error {w : Cmd} {e : DecodeError} (h : decode w = .error e) :
    10 ≤ opOf w ∨ fieldOutsideRow w := by
  simp only [fieldOutsideRow, ne_eq, chOf_eq_zero, selOf_eq_zero, dataOf_eq_zero, dataHighOf_eq_zero]
  simp only [opOf_eq, selOf_eq]
  rw [decode, decodeFields] at h
  generalize Fields.ofWord w = f at *
  split at h
  case h_2 hop =>
    have hf := decodeStart_eq_error h
    simp only [hop]
    simpa using hf
  case h_6 hop =>
    have hf := decodeTblrd_eq_error h
    simp only [hop]
    simpa using hf
  case h_11 =>
    simp only [imp_false] at *
    left; omega
  all_goals
    rename_i hop
    obtain ⟨hg, -⟩ := guardField_eq_error.mp h
    simp only [hop]
    simpa [Fields.plain, imp_iff_not_or, or_assoc] using hg

/-- Settles O6: a command's word is not among the reserved ones, and every word that does not decode is. -/
theorem reservedWordsRaiseReserved : Obligations.ReservedWordsRaiseReserved := by
  refine ⟨fun s w hw hres => ?_, fun w hop hf => ?_⟩
  · rw [step_of_completing hw]
    rcases runWord_cases w { s with inFlight := none } with ⟨_, -, h⟩ | ⟨i, hi, -⟩
    · exact h
    · obtain ⟨-, rfl⟩ := encodeInvertsDecode w i hi
      obtain ⟨hop, hf⟩ := encode_not_reserved i
      rcases hres with h | h
      · omega
      · exact absurd h hf
  · cases h : decode w with
    | ok i => exact ⟨i, rfl⟩
    | error e =>
      rcases reserved_of_decode_eq_error h with h | h
      · omega
      · exact absurd h hf

end Sys2Proof
end

section
/-! One step runs the command of the word in flight (20_memory.md R49, 30_encoding.md R64). -/

namespace Sys2Proof.Machine

open Sys2Proof

/-- Completing a word that decodes runs its command. -/
theorem runWord_of_ok {w : Cmd} {i : Instr} (h : decode w = .ok i) (s : State) : runWord w s = exec i s := by
  simp only [runWord, h]

/-- The core's move with a word in flight, out of reset and built, completes the word. -/
theorem coreMove_of_inFlight {s : State} {w : Cmd} (hr : s.inReset = false) (hb : s.built = true)
    (hf : s.inFlight = some w) : coreMove s = runWord w { s with inFlight := none } := by
  simp [coreMove, hr, hb, hf]

/-- A core with a word loaded is about to complete it. -/
theorem State.loadWord_completing (s : State) (w : Cmd) : (s.loadWord w).Completing w :=
  ⟨⟨rfl, by simp [State.loadWord, State.inReset], rfl⟩, rfl⟩

/-- A word stored whole is that word in flight (log 1, R68). -/
theorem State.withFetchWord_toNat (s : State) (w : Cmd) : s.withFetchWord 32 w.toNat = s.loadWord w := by
  rw [State.withFetchWord, Nat.mod_eq_of_lt w.isLt, BitVec.ofNat_toNat, BitVec.setWidth_eq]

/-- Settles O49: on the empty schedule, and in a turn of the core. -/
theorem stepRunsTheDecodedCommand : Obligations.StepRunsTheDecodedCommand := by
  refine ⟨fun s w i hw hi => ?_, fun s rest w i hturns hr hb hf hi => ?_⟩
  · rw [step_of_completing hw, runWord_of_ok hi]
  · calc step s = coreMove { s with turns := rest } := step_of_turn hturns
      _ = runWord w { s with turns := rest, inFlight := none } := coreMove_of_inFlight hr hb hf
      _ = exec i { s with turns := rest, inFlight := none } := runWord_of_ok hi _

/-- Settles O50: the loaded word is in flight, and it decodes to its command. -/
theorem loadedCommandRunsNext : Obligations.LoadedCommandRunsNext := by
  intro s i hi
  rw [s.withFetchWord_toNat, step_of_completing (s.loadWord_completing _), runWord_of_ok (decodeInvertsEncode i hi)]
  rfl

end Sys2Proof.Machine
end

section
/-! The disassembled line reads back: the characters of a printed line make its names, its numbers read as the numbers
printed, and its line is the command's (30_encoding.md R69). -/

namespace Sys2Proof.Machine

open Sys2Proof

/-! ## Lines made of names -/

/-- A character of the names that are printed: a letter, a digit, or the full stop of `.word`. -/
def isNameChar (ch : Char) : Bool := ch.isAlphanum || ch == '.'

/-- A name as it stands in a line. -/
def isName (cs : List Char) : Bool := !cs.isEmpty && cs.all isNameChar

/-- A name in capitals, as the assembler reads it. -/
def upper (cs : List Char) : List Char := cs.map Char.toUpper

@[simp] theorem upper_nil : upper [] = [] := rfl

@[simp] theorem upper_cons (ch : Char) (cs : List Char) : upper (ch :: cs) = ch.toUpper :: upper cs := rfl

/-- A character of a name is neither a quote, nor a comma, nor white space: it is collected, in capitals. -/
theorem tokens_cons {ch : Char} (h : isNameChar ch = true) (rest name : List Char) :
    tokens (ch :: rest) name none = tokens rest (ch.toUpper :: name) none := by
  rw [tokens]
  split
  case isTrue hquote => cases hquote ▸ h
  split
  case isTrue hcomma => cases hcomma ▸ h
  split
  case isTrue hspace =>
    simp only [Char.isWhitespace, Bool.or_eq_true, decide_eq_true_eq] at hspace
    rcases hspace with ((rfl | rfl) | rfl) | rfl <;> cases h
  rfl

/-- So are all characters of a name. -/
theorem tokens_append {cs : List Char} (h : cs.all isNameChar = true) (rest name : List Char) :
    tokens (cs ++ rest) name none = tokens rest ((upper cs).reverse ++ name) none := by
  induction cs generalizing name with
  | nil => rfl
  | cons ch cs ih =>
    obtain ⟨hch, hcs⟩ := Bool.and_eq_true_iff.mp h
    simp [tokens_cons hch, ih hcs]

/-- A collected name is put in front as one token. -/
theorem flushName_upper {cs : List Char} (h : isName cs = true) (rest : List Token) :
    flushName ((upper cs).reverse ++ []) rest = .name (upper cs) :: rest := by
  have hne : cs ≠ [] := by rintro rfl; cases h
  simp [flushName, upper, hne]

/-- A name alone is one token. -/
theorem tokens_name {cs : List Char} (h : isName cs = true) : tokens cs [] none = some [.name (upper cs)] := by
  obtain ⟨-, hall⟩ := Bool.and_eq_true_iff.mp h
  rw [← List.append_nil cs, tokens_append hall, tokens, List.append_nil cs, flushName_upper h]

/-- A space ends a name. -/
theorem tokens_name_space {cs : List Char} (h : isName cs = true) (rest : List Char) :
    tokens (cs ++ ([' '] ++ rest)) [] none = (tokens rest [] none).map (.name (upper cs) :: ·) := by
  obtain ⟨-, hall⟩ := Bool.and_eq_true_iff.mp h
  rw [tokens_append hall]
  show (tokens rest [] none).map (flushName _) = _
  simp only [funext (flushName_upper h)]

/-- A comma ends a name, and is a token of its own. -/
theorem tokens_name_comma {cs : List Char} (h : isName cs = true) (rest : List Char) :
    tokens (cs ++ ([',', ' '] ++ rest)) [] none =
      (tokens rest [] none).map (.name (upper cs) :: .comma :: ·) := by
  obtain ⟨-, hall⟩ := Bool.and_eq_true_iff.mp h
  rw [tokens_append hall]
  show ((tokens rest [] none).map (flushName [])).map (fun ts => flushName _ (.comma :: ts)) = _
  simp only [flushName_upper h, Option.map_map]
  rfl

/-- A line of a mnemonic and one operand. -/
theorem parseLine_one {m a : List Char} (hm : isName m = true) (ha : isName a = true) :
    parseLine (m ++ [' '] ++ a) = lineOf (upper m) [.name (upper a)] := by
  rw [parseLine, List.append_assoc, tokens_name_space hm, tokens_name ha]
  rfl

/-- A line of a mnemonic and two operands. -/
theorem parseLine_two {m a b : List Char} (hm : isName m = true) (ha : isName a = true) (hb : isName b = true) :
    parseLine (m ++ [' '] ++ a ++ [',', ' '] ++ b) = lineOf (upper m) [.name (upper a), .comma, .name (upper b)] := by
  simp only [parseLine, List.append_assoc]
  rw [tokens_name_space hm, tokens_name_comma ha, tokens_name hb]
  rfl

/-! ## Numbers read as printed -/

/-- A digit is a character of a name, and reads as its value. -/
theorem hexDigit_spec (d : BitVec 4) :
    isNameChar (hexDigit d) = true ∧ digitValue 16 (hexDigit d).toUpper = some d.toNat := by
  revert d
  decide

/-- The digits of `hexText`, without the `0x` in front. -/
def hexDigits (n : Nat) (w : Cmd) : List Char :=
  (List.range n).map fun k => hexDigit (w.extractLsb' (4 * (n - 1 - k)) 4)

theorem hexText_eq (n : Nat) (w : Cmd) : hexText n w = '0' :: 'x' :: hexDigits n w := rfl

/-- The most significant digit stands first. -/
theorem hexDigits_succ (n : Nat) (w : Cmd) :
    hexDigits (n + 1) w = hexDigit (w.extractLsb' (4 * n) 4) :: hexDigits n w := by
  simp only [hexDigits, List.range_succ_eq_map, List.map_cons, List.map_map]
  refine congrArg₂ _ (by simp) (List.map_congr_left fun k _ => ?_)
  simp only [Function.comp_apply]
  congr 3
  omega

theorem isName_hexText (n : Nat) (w : Cmd) : isName (hexText n w) = true := by
  have hdigits : (hexDigits n w).all isNameChar = true := by simp [hexDigits, hexDigit_spec]
  rw [hexText_eq, isName, List.all_cons, List.all_cons, hdigits]
  rfl

/-- The value of digits read after the value `a`. -/
def digitsAfter (base a : Nat) (cs : List Char) : Option Nat :=
  cs.foldl (fun acc ch => acc.bind fun a => (digitValue base ch).map (a * base + ·)) (some a)

theorem digitsValue_cons (base : Nat) (ch : Char) (cs : List Char) :
    digitsValue base (ch :: cs) = digitsAfter base 0 (ch :: cs) := rfl

theorem digitsAfter_cons {base d : Nat} {ch : Char} (h : digitValue base ch = some d) (a : Nat) (cs : List Char) :
    digitsAfter base a (ch :: cs) = digitsAfter base (a * base + d) cs := by
  simp [digitsAfter, h]

/-- `n` digits of a word read as its low `4 * n` bits. -/
theorem digitsAfter_hexDigits (n : Nat) (w : Cmd) (a : Nat) :
    digitsAfter 16 a (upper (hexDigits n w)) = some (a * 16 ^ n + w.toNat % 16 ^ n) := by
  induction n generalizing a with
  | zero => simp [hexDigits, upper, digitsAfter, Nat.mod_one]
  | succ n ih =>
    have hdigit : (w.extractLsb' (4 * n) 4).toNat = w.toNat / 16 ^ n % 16 := by
      rw [BitVec.extractLsb'_toNat, Nat.shiftRight_eq_div_pow, Nat.pow_mul]
    have hsplit : w.toNat % 16 ^ (n + 1) = w.toNat % 16 ^ n + 16 ^ n * (w.toNat / 16 ^ n % 16) := Nat.mod_mul
    rw [hexDigits_succ, upper_cons, digitsAfter_cons (hexDigit_spec _).2, ih, hdigit, hsplit]
    congr 1
    ring

/-- A number printed with enough digits reads back, below any limit above it (R69). -/
theorem numberBelow_hexText {n limit : Nat} {w : Cmd} (hw : w.toNat < 16 ^ (n + 1)) (hl : w.toNat < limit) :
    numberBelow limit (upper (hexText (n + 1) w)) = some w.toNat := by
  have hvalue : numberValue (upper (hexText (n + 1) w)) = some w.toNat :=
    calc numberValue (upper (hexText (n + 1) w)) = digitsValue 16 (upper (hexDigits (n + 1) w)) := rfl
      _ = digitsAfter 16 0 (upper (hexDigits (n + 1) w)) := by
        rw [hexDigits_succ, upper_cons, digitsValue_cons]
      _ = some w.toNat := by rw [digitsAfter_hexDigits, Nat.mod_eq_of_lt hw, Nat.zero_mul, Nat.zero_add]
  simp [numberBelow, hvalue, hl]

theorem byteOperand_hexText (b : Byte) : byteOperand (upper (hexText 2 (b.setWidth 32))) = some b := by
  have hb : (b.setWidth 32).toNat = b.toNat := BitVec.toNat_setWidth_of_le (by decide)
  rw [byteOperand, numberBelow_hexText (hb ▸ b.isLt) (hb ▸ b.isLt), hb]
  simp

theorem wordOperand_hexText (w : Word) : wordOperand (upper (hexText 4 (w.setWidth 32))) = some w := by
  have hw : (w.setWidth 32).toNat = w.toNat := BitVec.toNat_setWidth_of_le (by decide)
  rw [wordOperand, numberBelow_hexText (hw ▸ w.isLt) (hw ▸ w.isLt), hw]
  simp

/-- `chN` is a name, and reads as its number. -/
theorem channelText_spec {c : Nat} (h : channelFits c = true) :
    isName (channelText c) = true ∧ channelOperand (upper (channelText c)) = some c := by
  have hall : ∀ c < 16, isName (channelText c) = true ∧ channelOperand (upper (channelText c)) = some c := by decide
  exact hall c (of_decide_eq_true h)

theorem variantText_spec (v : Variant) :
    isName (variantText v) = true ∧ variantOperand (upper (variantText v)) = some v := by
  cases v <;> decide

/-! ## Every line reads as what it was printed for -/

/-- START lines read back (R69). -/
theorem parseLine_startText {c : Nat} (h : channelFits c = true) (v : Variant) :
    parseLine (startText c v) = some (.command (.start v c)) := by
  obtain ⟨hc, hcv⟩ := channelText_spec h
  obtain ⟨hv, hvv⟩ := variantText_spec v
  refine (parseLine_two (m := ['S', 'T', 'A', 'R', 'T']) (by decide) hc hv).trans ?_
  simp [lineOf, hcv, hvv]

/-- The line printed for a well-formed command reads back as that command (R69). -/
theorem parseLine_commandText {i : Instr} (h : i.WellFormed) : parseLine (commandText i) = some (.command i) := by
  have hex2 (b : Byte) := isName_hexText 2 (b.setWidth 32)
  have hex4 (w : Word) := isName_hexText 4 (w.setWidth 32)
  cases i with
  | nop => decide
  | stat => decide
  | startDbs c => exact parseLine_startText h .dbs
  | startDtb c => exact parseLine_startText h .dtb
  | startRbs c => exact parseLine_startText h .rbs
  | startRtb c => exact parseLine_startText h .rtb
  | startArc c => exact parseLine_startText h .arc
  | feed c b =>
    obtain ⟨hc, hcv⟩ := channelText_spec h
    refine (parseLine_two (m := ['F', 'E', 'E', 'D']) (by decide) hc (hex2 b)).trans ?_
    simp [lineOf, hcv, byteOperand_hexText]
  | finish c =>
    obtain ⟨hc, hcv⟩ := channelText_spec h
    refine (parseLine_one (m := ['F', 'I', 'N', 'I', 'S', 'H']) (by decide) hc).trans ?_
    simp [lineOf, hcv]
  | tblrdD k =>
    refine (parseLine_two (m := ['T', 'B', 'L', 'R', 'D']) (a := ['D', 'I', 'R']) (by decide) (by decide)
      (hex2 k)).trans ?_
    simp [lineOf, byteOperand_hexText]
  | tblrdR k =>
    refine (parseLine_two (m := ['T', 'B', 'L', 'R', 'D']) (a := ['R', 'E', 'F']) (by decide) (by decide)
      (hex2 k)).trans ?_
    simp [lineOf, byteOperand_hexText]
  | step8d w =>
    refine (parseLine_one (m := ['S', 'T', 'E', 'P', '8', 'D']) (by decide) (hex4 w)).trans ?_
    simp [lineOf, wordOperand_hexText]
  | step8r w =>
    refine (parseLine_one (m := ['S', 'T', 'E', 'P', '8', 'R']) (by decide) (hex4 w)).trans ?_
    simp [lineOf, wordOperand_hexText]
  | rev8 x =>
    refine (parseLine_one (m := ['R', 'E', 'V', '8']) (by decide) (hex2 x)).trans ?_
    simp [lineOf, byteOperand_hexText]
  | rev16 w =>
    refine (parseLine_one (m := ['R', 'E', 'V', '1', '6']) (by decide) (hex4 w)).trans ?_
    simp [lineOf, wordOperand_hexText]

/-- A `.word` line reads back as its word (R69). -/
theorem parseLine_wordText (w : Cmd) :
    parseLine (['.', 'w', 'o', 'r', 'd', ' '] ++ hexText 8 w) = some (.word w) := by
  refine (parseLine_one (m := ['.', 'w', 'o', 'r', 'd']) (by decide) (isName_hexText 8 w)).trans ?_
  have hw := numberBelow_hexText (n := 7) (limit := 2 ^ 32) w.isLt w.isLt
  simp [lineOf, hw]

/-- Settles O8: the line of a word that decodes reads as its command, any other as its `.word` line. -/
theorem disassembledLineReadsBack : Obligations.DisassembledLineReadsBack := by
  intro w
  cases h : decode w with
  | ok i =>
    obtain ⟨hwf, hw⟩ := encodeInvertsDecode w i h
    simp only [disassemble, h, parseLine_commandText hwf, Option.map_some, AsmLine.words, hw]
  | error e => simp only [disassemble, h, parseLine_wordText, Option.map_some, AsmLine.words]

end Sys2Proof.Machine
end

section
/-! Functions linear over GF(2), the eight-step loops among them: what they make of the single bits decides them
(40_datapath.md R82, R87, R91). -/

namespace Sys2Proof.Machine

open Sys2Proof

/-! ## Linear functions -/

/-- The function respects XOR: it is linear over GF(2). -/
def XorLinear {m n : Nat} (f : BitVec m → BitVec n) : Prop := ∀ a b, f (a ^^^ b) = f a ^^^ f b

section
variable {l m n : Nat}

theorem XorLinear.comp {f : BitVec m → BitVec n} {g : BitVec l → BitVec m} (hf : XorLinear f) (hg : XorLinear g) :
    XorLinear fun a => f (g a) :=
  fun a b => (congrArg f (hg a b)).trans (hf (g a) (g b))

theorem XorLinear.xor {f g : BitVec m → BitVec n} (hf : XorLinear f) (hg : XorLinear g) :
    XorLinear fun a => f a ^^^ g a := by
  intro a b
  simp only [hf a b, hg a b]
  ac_rfl

theorem XorLinear.map_zero {f : BitVec m → BitVec n} (hf : XorLinear f) : f 0#m = 0#n :=
  calc f 0#m = f (0#m ^^^ 0#m) := by rw [BitVec.xor_self]
    _ = f 0#m ^^^ f 0#m := hf _ _
    _ = 0#n := BitVec.xor_self

/-- Two linear functions agree on every word made of the low `k` bits, where they agree on each of these bits. -/
theorem XorLinear.eq_of_low_bits {f g : BitVec m → BitVec n} (hf : XorLinear f) (hg : XorLinear g)
    (hbit : ∀ j < m, f (.twoPow m j) = g (.twoPow m j)) (k : Nat) :
    ∀ a : BitVec m, (∀ j, k ≤ j → a.getLsbD j = false) → f a = g a := by
  induction k with
  | zero =>
    intro a ha
    have hzero : a = 0#m := BitVec.eq_of_getLsbD_eq fun j _ => by rw [ha j (Nat.zero_le j), BitVec.getLsbD_zero]
    rw [hzero, hf.map_zero, hg.map_zero]
  | succ k ih =>
    intro a ha
    cases hk : a.getLsbD k with
    | false =>
      refine ih a fun j hj => ?_
      rcases Nat.eq_or_lt_of_le hj with rfl | hlt
      · exact hk
      · exact ha j hlt
    | true =>
      have hkm : k < m := BitVec.lt_of_getLsbD hk
      have hrest : f (a ^^^ .twoPow m k) = g (a ^^^ .twoPow m k) := by
        refine ih _ fun j hj => ?_
        rw [BitVec.getLsbD_xor, BitVec.getLsbD_twoPow]
        rcases Nat.eq_or_lt_of_le hj with rfl | hlt
        · simp [hk, hkm]
        · simp [ha j hlt, hlt.ne]
      have hsplit : a = (a ^^^ .twoPow m k) ^^^ .twoPow m k := by
        rw [BitVec.xor_assoc, BitVec.xor_self, BitVec.xor_zero]
      rw [hsplit, hf, hg, hrest, hbit k hkm]

/-- Linear functions that agree on every single bit agree. -/
theorem XorLinear.eq_of_bits {f g : BitVec m → BitVec n} (hf : XorLinear f) (hg : XorLinear g)
    (hbit : ∀ j < m, f (.twoPow m j) = g (.twoPow m j)) (a : BitVec m) : f a = g a :=
  hf.eq_of_low_bits hg hbit m a fun j hj => BitVec.getLsbD_of_ge a j hj

end

theorem xorLinear_shiftLeft (k : Nat) : XorLinear fun a : Word => a <<< k :=
  fun a b => BitVec.shiftLeft_xor_distrib a b k

theorem xorLinear_ushiftRight (k : Nat) : XorLinear fun a : Word => a >>> k :=
  fun a b => BitVec.ushiftRight_xor_distrib a b k

theorem xorLinear_zext16 : XorLinear zext16 := fun _ _ => BitVec.setWidth_xor

theorem xorLinear_highByte : XorLinear highByte := fun _ _ => BitVec.extractLsb'_xor

theorem xorLinear_lowByte : XorLinear lowByte := fun _ _ => BitVec.extractLsb'_xor

theorem xorLinear_rev8 : XorLinear rev8 := fun a b =>
  BitVec.eq_of_getLsbD_eq fun k _ => by
    simp only [rev8, BitVec.getLsbD_reverse, BitVec.getLsbD_xor, BitVec.getMsbD_xor]

theorem xorLinear_rev16 : XorLinear rev16 := fun a b => by
  simp only [rev16, xorLinear_lowByte a b, xorLinear_highByte a b, xorLinear_rev8 _ _, ← BitVec.xor_append]

theorem xorLinear_step8D : XorLinear step8D := rounds_xor stepD_xor 8

theorem xorLinear_step8R : XorLinear step8R := rounds_xor stepR_xor 8

theorem xorLinear_tdEntry : XorLinear tdEntry :=
  xorLinear_step8D.comp ((xorLinear_shiftLeft 8).comp xorLinear_zext16)

theorem xorLinear_trEntry : XorLinear trEntry := xorLinear_step8R.comp xorLinear_zext16

/-- The loops keep the zero word (R82). -/
theorem step8D_zero : step8D 0#16 = 0#16 := xorLinear_step8D.map_zero

theorem step8R_zero : step8R 0#16 = 0#16 := xorLinear_step8R.map_zero

/-- Entry 0 of both tables is 0 (R91). -/
theorem tdEntry_zero : tdEntry 0#8 = 0#16 := xorLinear_tdEntry.map_zero

theorem trEntry_zero : trEntry 0#8 = 0#16 := xorLinear_trEntry.map_zero

/-! ## The parallel network -/

/-- The network's XOR of named bits, read on from `p`, respects XOR. -/
theorem foldl_xorBits_xor (a b : Word) (ks : List Nat) (p q : Bool) :
    ks.foldl (fun acc k => acc ^^ (a ^^^ b).getLsbD k) (p ^^ q) =
      (ks.foldl (fun acc k => acc ^^ a.getLsbD k) p ^^ ks.foldl (fun acc k => acc ^^ b.getLsbD k) q) := by
  induction ks generalizing p q with
  | nil => rfl
  | cons k ks ih =>
    have hhead : (p ^^ q ^^ (a ^^^ b).getLsbD k) = (p ^^ a.getLsbD k ^^ (q ^^ b.getLsbD k)) := by
      simp only [BitVec.getLsbD_xor, Bool.xor_assoc, Bool.xor_left_comm]
    simp only [List.foldl_cons, hhead, ih]

theorem xorBits_xor (a b : Word) (ks : List Nat) : xorBits (a ^^^ b) ks = (xorBits a ks ^^ xorBits b ks) :=
  foldl_xorBits_xor a b ks false false

/-- One more bit behind the network's output. -/
def pushBit (acc : Word) (p : Bool) : Word := (acc <<< 1) ||| (BitVec.ofBool p).zeroExtend 16

theorem getLsbD_pushBit (acc : Word) (p : Bool) (k : Nat) :
    (pushBit acc p).getLsbD k = (decide (k < 16) && if k = 0 then p else acc.getLsbD (k - 1)) := by
  rcases k with _ | k <;> simp [pushBit]

/-- Pushing a bit respects XOR. -/
theorem pushBit_xor (x y : Word) (p q : Bool) : pushBit (x ^^^ y) (p ^^ q) = pushBit x p ^^^ pushBit y q := by
  refine BitVec.eq_of_getLsbD_eq fun k hk => ?_
  simp only [getLsbD_pushBit, BitVec.getLsbD_xor, hk]
  split <;> simp

theorem foldl_pushBit_xor (rows : List (List Nat)) (a b x y : Word) :
    rows.foldl (fun acc ks => pushBit acc (xorBits (a ^^^ b) ks)) (x ^^^ y) =
      rows.foldl (fun acc ks => pushBit acc (xorBits a ks)) x ^^^
        rows.foldl (fun acc ks => pushBit acc (xorBits b ks)) y := by
  induction rows generalizing x y with
  | nil => rfl
  | cons ks rows ih => rw [List.foldl_cons, xorBits_xor, pushBit_xor, ih, List.foldl_cons, List.foldl_cons]

/-- Every XOR network is linear. -/
theorem xorLinear_xorNetwork (rows : List (List Nat)) : XorLinear (xorNetwork rows) :=
  fun a b => foldl_pushBit_xor rows a b 0#16 0#16

/-! ## The obligations about the loops -/

/-- Settles O10. -/
theorem loopsAreLinear : Obligations.LoopsAreLinear :=
  fun a b => ⟨xorLinear_step8D a b, xorLinear_step8R a b⟩

/-- Settles O9: the loops and the networks are linear, and agree on each of the 16 bits. -/
theorem loopsEqualTheXorNetwork : Obligations.LoopsEqualTheXorNetwork := fun a =>
  ⟨xorLinear_step8D.eq_of_bits (xorLinear_xorNetwork networkRowsD) (by decide) a,
    xorLinear_step8R.eq_of_bits (xorLinear_xorNetwork networkRowsR) (by decide) a⟩

/-- Reversal is its own inverse. -/
theorem rev16_rev16 (a : Word) : rev16 (rev16 a) = a :=
  (xorLinear_rev16.comp xorLinear_rev16).eq_of_bits (g := fun b => b) (fun _ _ => rfl) (by decide) a

/-- One reflected step does to the reversed word what one direct step does to the word (R80, R81). -/
theorem stepR_rev16 (a : Word) : stepR (rev16 a) = rev16 (stepD a) :=
  XorLinear.eq_of_bits (XorLinear.comp stepR_xor xorLinear_rev16) (xorLinear_rev16.comp stepD_xor) (by decide) a

/-- Steps that agree through a map agree through it after any number of rounds. -/
theorem rounds_comm {f g h : Word → Word} (hstep : ∀ a, g (h a) = h (f a)) (n : Nat) (a : Word) :
    rounds g n (h a) = h (rounds f n a) := by
  induction n generalizing a with
  | zero => rfl
  | succ n ih => rw [rounds_succ, rounds_succ, hstep, ih]

theorem step8R_rev16 (a : Word) : step8R (rev16 a) = rev16 (step8D a) := rounds_comm stepR_rev16 8 a

/-- Settles O11: the loops mirror each other step by step, and reversing twice changes nothing. -/
theorem reflectedLoopIsTheReversedDirectLoop : Obligations.ReflectedLoopIsTheReversedDirectLoop := fun a =>
  calc step8R a = step8R (rev16 (rev16 a)) := by rw [rev16_rev16]
    _ = rev16 (step8D (rev16 a)) := step8R_rev16 (rev16 a)

/-- The direct loop is a shift and the table entry of the byte shifted out (R87). -/
theorem step8D_eq_shift_xor_entry (x : Word) : step8D x = (x <<< 8) ^^^ tdEntry (highByte x) :=
  xorLinear_step8D.eq_of_bits ((xorLinear_shiftLeft 8).xor (xorLinear_tdEntry.comp xorLinear_highByte)) (by decide) x

/-- The reflected loop is a shift and the table entry of the byte shifted out (R87). -/
theorem step8R_eq_shift_xor_entry (x : Word) : step8R x = (x >>> 8) ^^^ trEntry (lowByte x) :=
  xorLinear_step8R.eq_of_bits ((xorLinear_ushiftRight 8).xor (xorLinear_trEntry.comp xorLinear_lowByte)) (by decide) x

/-- Settles O12. -/
theorem loopsSplitIntoShiftAndTableEntry : Obligations.LoopsSplitIntoShiftAndTableEntry :=
  fun x => ⟨step8D_eq_shift_xor_entry x, step8R_eq_shift_xor_entry x⟩

/-- Settles O18: linearity in the index, and the named entries by running the loops. -/
theorem tableEntriesAreLinearInTheIndex : Obligations.TableEntriesAreLinearInTheIndex :=
  ⟨fun i j => ⟨xorLinear_tdEntry i j, xorLinear_trEntry i j⟩, by decide, by decide, by decide, by decide, by decide⟩

end Sys2Proof.Machine
end

section
/-! The built tables, the commands of the datapath, and the frame of every command (40_datapath.md R84, R85, R88 to
R90). -/

namespace Sys2Proof.Machine

open Sys2Proof

/-! ## The tables -/

/-- A ready core has its tables built (R32). -/
theorem State.Inv.tablesBuilt {s : State} (h : s.Inv) (hready : s.readyO = true) : s.TablesBuilt :=
  ⟨h.td_built hready, h.tr_built hready⟩

/-- Every entry of a built table reads as the rules give it (R84, R85). -/
theorem State.TablesBuilt.tblRead {s : State} (h : s.TablesBuilt) (t : TableSel) (i : Byte) :
    s.tblRead t i = tableEntry t i := by
  have htable : s.table t = builtTable t := by
    cases t with
    | direct => exact h.td
    | reflected => exact h.tr
  rw [State.tblRead, htable, getElem?_builtTable]

/-- Settles O13. -/
theorem builtTablesHoldTheLoopRemainders : Obligations.BuiltTablesHoldTheLoopRemainders := by
  intro s hinv hready
  have hbuilt := hinv.tablesBuilt hready
  exact ⟨hbuilt.td ▸ length_builtEntries .direct _, hbuilt.tr ▸ length_builtEntries .reflected _,
    fun i => ⟨hbuilt.tblRead .direct i, hbuilt.tblRead .reflected i⟩⟩

/-! ## The words of the commands -/

/-- The word of a command: its `DATA` stands below the other fields (R60). -/
theorem encode_eq_or_data {i : Instr} {o c : BitVec 4} {s : BitVec 8} {d : BitVec 16} {head : Cmd}
    (hfields : i.fields = ⟨o, c, s, d⟩) (hhead : Fields.toWord ⟨o, c, s, 0#16⟩ = head) :
    encode i = head ||| d.zeroExtend 32 := by
  simp [encode, hfields, ← hhead, Fields.toWord]

theorem zeroExtend_byteData (b : Byte) : (byteData b).zeroExtend 32 = b.zeroExtend 32 :=
  BitVec.setWidth_setWidth (by decide)

/-- `DATA` of a word with `DATA[15:8] = 0` carries the byte `DATA[7:0]` (R60). -/
theorem byteData_extractLsb' {w : Cmd} (h : dataHighOf w = 0) :
    byteData (w.extractLsb' 0 8) = (Fields.ofWord w).data := by
  rw [← extractLsb'_dataLow]
  exact Fields.byteData_byte (dataHighOf_eq_zero.mp h)

/-- A word decodes to the well-formed command with the word's four fields (R64). -/
theorem decode_of_fields {w : Cmd} {i : Instr} {o c s : Nat} {d : BitVec 16} (hwf : i.WellFormed)
    (hfields : i.fields = ⟨BitVec.ofNat 4 o, BitVec.ofNat 4 c, BitVec.ofNat 8 s, d⟩) (hop : opOf w = o)
    (hch : chOf w = c) (hsel : selOf w = s) (hdata : d = (Fields.ofWord w).data) : decode w = .ok i :=
  decodeFields_of_fields_eq hwf (hfields.trans (Fields.eq_mk (eq_ofNat_of_toNat hop) (eq_ofNat_of_toNat hch)
    (eq_ofNat_of_toNat hsel) hdata.symm))

/-- A word with a field outside its row is answered with E_RESERVED (R66). -/
theorem step_of_fieldOutsideRow {s : State} {w : Cmd} (hw : s.Completing w) (hf : fieldOutsideRow w) :
    step s = .next (s.answered .reserved 0#16) :=
  reservedWordsRaiseReserved.1 s w hw (.inr hf)

/-- Settles O15. -/
theorem tblrdAnswersTheTableEntry : Obligations.TblrdAnswersTheTableEntry := by
  refine ⟨fun i => ?_, fun i s => ⟨rfl, rfl⟩, fun i s hbuilt => ?_, fun w s hw hop hf => ?_,
    fun w hop hch hhigh => ?_, tdEntry_zero, trEntry_zero⟩
  · rw [← zeroExtend_byteData]
    exact ⟨encode_eq_or_data rfl (by decide), encode_eq_or_data rfl (by decide)⟩
  · have hd : s.tblRead .direct i = step8D (zext16 i <<< 8) := hbuilt.tblRead .direct i
    have hr : s.tblRead .reflected i = step8R (zext16 i) := hbuilt.tblRead .reflected i
    rw [← hd, ← hr]
    exact ⟨rfl, rfl⟩
  · refine step_of_fieldOutsideRow hw ?_
    rcases hf with h | h | h
    · simp [fieldOutsideRow, hop, h]
    · simp [fieldOutsideRow, hop, show 2 ≤ selOf w from h]
    · simp [fieldOutsideRow, hop, h]
  · have hdata := byteData_extractLsb' hhigh
    exact ⟨fun hsel => decode_of_fields rfl rfl hop hch hsel hdata,
      fun hsel => decode_of_fields rfl rfl hop hch hsel hdata⟩

/-- The high byte of a number below 256 is 0. -/
theorem highByte_of_lt {w : Word} (h : w.toNat < 0x100) : highByte w = 0#8 := by
  refine BitVec.eq_of_toNat_eq ?_
  simp [highByte, BitVec.extractLsb'_toNat, Nat.shiftRight_eq_div_pow, Nat.div_eq_of_lt h]

/-- Settles O16; a word whose high byte is 0 reads table entry 0, so only the shift is left (R87). -/
theorem step8dAnswersTheDirectLoop : Obligations.Step8dAnswersTheDirectLoop := by
  refine ⟨fun w => encode_eq_or_data rfl (by decide), fun w s => rfl, fun w s hw hop hf => ?_,
    fun w hop hch hsel => ?_, step8D_zero, by decide, by decide, fun w hw => ?_⟩
  · refine step_of_fieldOutsideRow hw ?_
    rcases hf with h | h <;> simp [fieldOutsideRow, hop, h]
  · exact decode_of_fields rfl rfl hop hch hsel rfl
  · rw [step8D_eq_shift_xor_entry, highByte_of_lt hw, tdEntry_zero, BitVec.xor_zero]

/-- Settles O17; a word whose low byte is 0 reads table entry 0, so only the shift is left (R87). -/
theorem step8rAnswersTheReflectedLoop : Obligations.Step8rAnswersTheReflectedLoop := by
  refine ⟨fun w => encode_eq_or_data rfl (by decide), fun w s => rfl, fun w s hw hop hf => ?_,
    fun w hop hch hsel => ?_, step8R_zero, by decide, by decide, fun w hw => ?_⟩
  · refine step_of_fieldOutsideRow hw ?_
    rcases hf with h | h <;> simp [fieldOutsideRow, hop, h]
  · exact decode_of_fields rfl rfl hop hch hsel rfl
  · rw [step8R_eq_shift_xor_entry, hw, trEntry_zero, BitVec.xor_zero]

/-! ## The frame -/

/-- Settles O40: a command answers once, and rewrites at most the channel it names. -/
theorem commandsKeepTheirFrame : Obligations.CommandsKeepTheirFrame := by
  intro i s
  rcases resultOf_effect i s with ⟨e, d, h⟩ | ⟨k, ch, e, d, hk, -, h⟩
  · exact ⟨s.respond e d, ⟨e, d⟩, (exec_eq_next i s).trans (congrArg _ h), rfl, rfl, rfl, rfl, rfl, rfl, rfl, rfl,
      rfl, rfl, rfl, fun c _ => rfl⟩
  · refine ⟨(s.setChan k ch).respond e d, ⟨e, d⟩, (exec_eq_next i s).trans (congrArg _ h), rfl, rfl, rfl, rfl, rfl,
      rfl, rfl, rfl, rfl, rfl, s.setChan_nch k ch, fun c hc => ?_⟩
    exact s.setChan_chan?_other k c ch fun hck => hc (hck ▸ hk)

end Sys2Proof.Machine
end

section
/-! FEED in each of the five modes (41_bit_serial.md R100, R101; 42_table_driven.md R110, R111, R113). -/

namespace Sys2Proof.Machine

open Sys2Proof

/-- With built tables, a state's update functions are those over the rules' entries (R84, R85, R143). -/
theorem State.TablesBuilt.upd_eq {s : State} (h : s.TablesBuilt) : s.upd = updOf tdEntry trEntry := by
  have hd : s.tblRead .direct = tdEntry := funext (h.tblRead .direct)
  have hr : s.tblRead .reflected = trEntry := funext (h.tblRead .reflected)
  funext v a b
  rw [State.upd, hd, hr]

@[simp] theorem lowByte_zext16 (b : Byte) : lowByte (zext16 b) = b :=
  BitVec.eq_of_getLsbD_eq fun k hk => by
    rw [getLsbD_lowByte, getLsbD_zext16, decide_eq_true hk, Bool.true_and]

/-- The reflected table index is the low byte of the accumulator XOR the byte fed (R111). -/
theorem updRTB_eq (tr : Byte → Word) (a : Word) (b : Byte) :
    updRTB tr a b = (a >>> 8) ^^^ tr (lowByte a ^^^ b) := by
  rw [updRTB, xorLinear_lowByte, lowByte_zext16]

/-- FEED to an open call leaves the channel open in its mode, with the mode's update of the accumulator (R144). -/
theorem exec_feed_opened {s : State} {c : Nat} {v : Variant} {a : Word} (b : Byte) (hbuilt : s.TablesBuilt)
    (hopen : s.chan? c = some (.opened v a)) :
    ∃ t, exec (.feed c b) s = .next t ∧ t.chan? c = some (.opened v (updOf tdEntry trEntry v a b)) := by
  refine ⟨s.feedCall c b, exec_eq_next (.feed c b) s, ?_⟩
  rw [State.feedCall_of_opened b hopen, hbuilt.upd_eq, State.respond_chan?,
    s.setChan_chan?_self c _ (State.lt_nch_of_chan? hopen)]

/-- Settles O32: the modes' updates as written; those over the reflected table go through the index of R111. -/
theorem feedComputesTheModesUpdate : Obligations.FeedComputesTheModesUpdate := by
  intro c b a s hbuilt
  have hreflected : updRTB trEntry a b = (a >>> 8) ^^^ step8R (zext16 (lowByte a ^^^ b)) := updRTB_eq trEntry a b
  refine ⟨exec_feed_opened b hbuilt, exec_feed_opened b hbuilt, exec_feed_opened b hbuilt, ?_, ?_⟩
  · rw [← hreflected]
    exact exec_feed_opened b hbuilt
  · rw [← hreflected]
    exact exec_feed_opened b hbuilt

end Sys2Proof.Machine
end

section
/-! The variants of one family compute one function (42_table_driven.md R117, R118). -/

namespace Sys2Proof.Machine

open Sys2Proof

/-- By linearity the byte contributes its own table entry to the loop, and the accumulator's shifted-out byte contributes
another (R87); linearity of the table joins the two entries into the one that is read (R118). -/
theorem updDBS_eq_updDTB (a : Word) (b : Byte) : updDBS a b = updDTB tdEntry a b :=
  calc updDBS a b = step8D a ^^^ tdEntry b := xorLinear_step8D a (zext16 b <<< 8)
    _ = (a <<< 8) ^^^ (tdEntry (highByte a) ^^^ tdEntry b) := by rw [step8D_eq_shift_xor_entry, BitVec.xor_assoc]
    _ = updDTB tdEntry a b := by rw [updDTB, xorLinear_tdEntry]

/-- The same argument for the reflected loop (R118). -/
theorem updRBS_eq_updRTB (a : Word) (b : Byte) : updRBS a b = updRTB trEntry a b :=
  calc updRBS a b = step8R a ^^^ trEntry b := xorLinear_step8R a (zext16 b)
    _ = (a >>> 8) ^^^ (trEntry (lowByte a) ^^^ trEntry b) := by rw [step8R_eq_shift_xor_entry, BitVec.xor_assoc]
    _ = updRTB trEntry a b := by rw [updRTB_eq, xorLinear_trEntry]

/-- Settles O25. -/
theorem updatesOfOneFamilyAgree : Obligations.UpdatesOfOneFamilyAgree :=
  fun a b => ⟨updDBS_eq_updDTB a b, updRBS_eq_updRTB a b⟩

/-- Variants with one initial value, one final XOR, and updates that agree on every accumulator and byte give one checksum
(R147). -/
theorem crc_congr (v w : Variant) (hinit : initOf v = initOf w) (hxorout : xoroutOf v = xoroutOf w)
    (hupd : ∀ a b, updOf tdEntry trEntry v a b = updOf tdEntry trEntry w a b) (d : List Byte) : crc v d = crc w d := by
  have hfun : updOf tdEntry trEntry v = updOf tdEntry trEntry w := funext fun a => funext (hupd a)
  rw [crc, crc, accAfter, accAfter, hinit, hxorout, hfun]

/-- Settles O26: ARC has the constants and the update of RTB; the other two pairs agree byte by byte (R118). -/
theorem variantsOfOneFamilyAgree : Obligations.VariantsOfOneFamilyAgree := fun d =>
  ⟨crc_congr .dbs .dtb rfl rfl updDBS_eq_updDTB d, crc_congr .rbs .rtb rfl rfl updRBS_eq_updRTB d,
    crc_congr .rtb .arc rfl rfl (fun _ _ => rfl) d⟩

end Sys2Proof.Machine
end

section
/-! The reversal helpers, their commands, and the two families of checksums as mirror images (43_reversal.md). -/

namespace Sys2Proof.Machine

open Sys2Proof

/-! ## The helpers -/

/-- Bit `k` of the reversed byte (R130). -/
theorem getLsbD_rev8 (x : Byte) {k : Nat} (hk : k < 8) : (rev8 x).getLsbD k = x.getLsbD (7 - k) := by
  rw [rev8, BitVec.getLsbD_reverse, BitVec.getMsbD_eq_getLsbD, decide_eq_true hk, Bool.true_and]

/-- Bit `k` of the reversed word: the low half holds the reversed high byte, the high half the reversed low byte
(R131). -/
theorem getLsbD_rev16 (w : Word) {k : Nat} (hk : k < 16) : (rev16 w).getLsbD k = w.getLsbD (15 - k) := by
  rw [rev16, BitVec.getLsbD_append]
  split
  · next hlow =>
    rw [getLsbD_rev8 _ hlow, getLsbD_highByte, decide_eq_true (by omega), Bool.true_and]
    congr 1
    omega
  · next hhigh =>
    rw [getLsbD_rev8 _ (by omega), getLsbD_lowByte, decide_eq_true (by omega), Bool.true_and]
    congr 1
    omega

theorem rev16_zero : rev16 0#16 = 0#16 := xorLinear_rev16.map_zero

/-- The reversed byte in the high half mirrors to the byte in the low half (R136). -/
theorem rev16_rev8_shiftLeft (b : Byte) : rev16 (zext16 (rev8 b) <<< 8) = zext16 b :=
  (xorLinear_rev16.comp ((xorLinear_shiftLeft 8).comp (xorLinear_zext16.comp xorLinear_rev8))).eq_of_bits
    xorLinear_zext16 (by decide) b

/-- A widened byte is below 256. -/
theorem toNat_zext16_lt (b : Byte) : (zext16 b).toNat < 0x100 :=
  calc (zext16 b).toNat = b.toNat := BitVec.toNat_setWidth_of_le (by decide)
    _ < 0x100 := b.isLt

/-- Settles O19: the byte form of `rev16` is its definition. -/
theorem reversalMirrorsTheBits : Obligations.ReversalMirrorsTheBits :=
  ⟨fun x _ hk => getLsbD_rev8 x hk, fun w => ⟨fun _ hk => getLsbD_rev16 w hk, rfl⟩⟩

/-- Settles O20. -/
theorem reversalsAreInvolutions : Obligations.ReversalsAreInvolutions :=
  ⟨fun _ => BitVec.reverse_reverse_eq, rev16_rev16⟩

/-- Settles O21, by running the reversal on the constant. -/
theorem polynomialsArePairedByReversal : Obligations.PolynomialsArePairedByReversal := by
  unfold Obligations.PolynomialsArePairedByReversal
  decide

/-! ## The commands -/

/-- Settles O22. -/
theorem rev8AnswersTheReversedByte : Obligations.Rev8AnswersTheReversedByte := by
  refine ⟨fun x => ?_, fun x s => ⟨zext16 (rev8 x), rfl, toNat_zext16_lt _, fun k hk => ?_⟩, fun w s hw hop hf => ?_,
    fun w hop hch hsel hhigh => ?_, by decide, by decide, by decide⟩
  · rw [← zeroExtend_byteData]
    exact encode_eq_or_data rfl (by decide)
  · rw [getLsbD_zext16, getLsbD_rev8 x hk]
  · refine step_of_fieldOutsideRow hw ?_
    rcases hf with h | h | h <;> simp [fieldOutsideRow, hop, h]
  · exact decode_of_fields rfl rfl hop hch hsel (byteData_extractLsb' hhigh)

/-- Settles O23. -/
theorem rev16AnswersTheReversedWord : Obligations.Rev16AnswersTheReversedWord := by
  refine ⟨fun w => encode_eq_or_data rfl (by decide), fun w s => ⟨rev16 w, rfl, fun k hk => getLsbD_rev16 w hk⟩,
    fun w s hw hop hf => ?_, fun w hop hch hsel => ?_, rev16_zero, by decide, by decide, by decide⟩
  · refine step_of_fieldOutsideRow hw ?_
    rcases hf with h | h <;> simp [fieldOutsideRow, hop, h]
  · exact decode_of_fields rfl rfl hop hch hsel rfl

/-! ## The two families -/

/-- The reflected update of the mirrored accumulator mirrors the direct update by the mirrored byte (R136). -/
theorem updRBS_rev16 (a : Word) (b : Byte) : updRBS (rev16 a) b = rev16 (updDBS a (rev8 b)) :=
  calc updRBS (rev16 a) b = step8R (rev16 a ^^^ rev16 (zext16 (rev8 b) <<< 8)) := by rw [updRBS, rev16_rev8_shiftLeft]
    _ = step8R (rev16 (a ^^^ zext16 (rev8 b) <<< 8)) := by rw [xorLinear_rev16]
    _ = rev16 (updDBS a (rev8 b)) := step8R_rev16 _

/-- So it is after any number of bytes. -/
theorem accAfter_rbs_rev16 (a : Word) (d : List Byte) :
    accAfter .rbs (rev16 a) d = rev16 (accAfter .dbs a (d.map rev8)) := by
  rw [accAfter, accAfter, List.foldl_map]
  exact List.foldl_hom rev16 updRBS_rev16

/-- The initial values and the final XORs of RBS and DBS are 0, which is its own mirror image. -/
theorem crc_rbs_eq_rev16 (d : List Byte) : crc .rbs d = rev16 (crc .dbs (d.map rev8)) :=
  calc crc .rbs d = accAfter .rbs 0#16 d := BitVec.xor_zero
    _ = rev16 (accAfter .dbs 0#16 (d.map rev8)) := by rw [← accAfter_rbs_rev16, rev16_zero]
    _ = rev16 (crc .dbs (d.map rev8)) := congrArg rev16 BitVec.xor_zero.symm

/-- Settles O27: the bit-serial pair by the mirrored updates; the table-driven variants equal the bit-serial ones of their
family (R117). -/
theorem reflectedChecksumIsTheReversedDirectOne : Obligations.ReflectedChecksumIsTheReversedDirectOne := by
  intro d
  obtain ⟨-, hrtb, harc⟩ := variantsOfOneFamilyAgree d
  obtain ⟨hdtb, -, -⟩ := variantsOfOneFamilyAgree (d.map rev8)
  have hmirror := crc_rbs_eq_rev16 d
  rw [← harc, ← hrtb, ← hdtb]
  exact ⟨hmirror, hmirror, hmirror⟩

end Sys2Proof.Machine
end

section
/-! The commands of a call one by one (44_call_control.md R141 to R148): their words, what they answer and write, and
which words they reserve. -/

namespace Sys2Proof.Machine

open Sys2Proof

/-! ## The functions of the variants -/

/-- Settles O24; the reflected table index is the one of R111. -/
theorem variantFunctionsFollowTheTable : Obligations.VariantFunctionsFollowTheTable := by
  refine ⟨fun v => ?_, rfl, rfl, fun a b => ⟨rfl, rfl, rfl, updRTB_eq trEntry a b, rfl⟩⟩
  cases v <;> exact ⟨rfl, rfl⟩

/-- Refutes O28: a zero byte leaves the accumulator `0x8003` of DBS as it is (log 17). -/
theorem not_zeroByteChangesEveryNonzeroAccumulator : ¬ Obligations.ZeroByteChangesEveryNonzeroAccumulator := by
  intro h
  have hfixed : updOf tdEntry trEntry .dbs 0x8003#16 0x00#8 = 0x8003#16 := by decide
  exact h .dbs 0x8003#16 (by decide) hfixed

/-- The checksum of no bytes is 0 in every variant (R149). -/
theorem initOf_xor_xoroutOf (v : Variant) : initOf v ^^^ xoroutOf v = 0#16 := by
  cases v <;> rfl

/-! ## The words of the commands that name a channel -/

/-- A channel number of four bits stands in the word as it is (R62). -/
theorem zeroExtend_channel {c : Nat} (h : c < 16) : (BitVec.ofNat 4 c).zeroExtend 32 = BitVec.ofNat 32 c :=
  BitVec.eq_of_toNat_eq (by simp; omega)

/-- The fields above `DATA`, with a channel number of four bits (R60). -/
theorem toWord_of_channel {c : Nat} (h : c < 16) (o : BitVec 4) (s : BitVec 8) :
    Fields.toWord ⟨o, BitVec.ofNat 4 c, s, 0#16⟩ =
      o.zeroExtend 32 <<< 28 ||| BitVec.ofNat 32 c <<< 24 ||| s.zeroExtend 32 <<< 16 := by
  rw [Fields.toWord, zeroExtend_channel h]
  exact BitVec.or_zero

/-- Without a selector, the opcode and the channel are all there is above `DATA` (R60). -/
theorem toWord_of_channel_no_sel {c : Nat} (h : c < 16) (o : BitVec 4) :
    Fields.toWord ⟨o, BitVec.ofNat 4 c, 0#8, 0#16⟩ = o.zeroExtend 32 <<< 28 ||| BitVec.ofNat 32 c <<< 24 :=
  (toWord_of_channel h o 0#8).trans BitVec.or_zero

/-! ## NOP and STAT -/

theorem opOf_eq_zero {w : Cmd} : opOf w = 0 ↔ (Fields.ofWord w).op = 0#4 := (BitVec.toNat_eq (y := 0#4)).symm

/-- Settles O29; a word whose fields are all 0 is the word of NOP. -/
theorem nopAnswersAndDoesNothing : Obligations.NopAnswersAndDoesNothing := by
  refine ⟨by decide, fun s => rfl, rfl, fun w s hw hop hne => step_of_fieldOutsideRow hw ?_⟩
  by_contra hf
  simp only [fieldOutsideRow, hop, not_or, List.mem_cons, true_or, true_and, not_not] at hf
  obtain ⟨hch, hsel, hdata, -⟩ := hf
  exact hne (Fields.ofWord_inj (Fields.eq_mk (opOf_eq_zero.mp hop) (chOf_eq_zero.mp hch) (selOf_eq_zero.mp hsel)
    (dataOf_eq_zero.mp hdata)).symm)

/-- The core has no open channel from `NCH` up. -/
theorem State.isOpen_of_ge {s : State} {c : Nat} (h : s.nch ≤ c) : s.isOpen c = false := by
  rw [State.isOpen_eq_any, (s.chan?_eq_none c).mpr h]
  rfl

/-- The mask is 0 from bit `NCH` up (R148). -/
theorem State.getLsbD_openMask_of_ge {s : State} {k : Nat} (h : s.nch ≤ k) : s.openMask.getLsbD k = false := by
  rcases Nat.lt_or_ge k 16 with hk | hk
  · rw [s.getLsbD_openMask hk, State.isOpen_of_ge h]
  · exact BitVec.getLsbD_of_ge _ _ hk

/-- No channel is open after reset (R34). -/
theorem resetWith_openMask (p : Config.Params) : (State.resetWith p).openMask = 0#16 := by
  refine BitVec.eq_of_getLsbD_eq fun k hk => ?_
  rw [State.getLsbD_openMask _ hk, BitVec.getLsbD_zero]
  rcases Nat.lt_or_ge k p.nch with h | h
  · rw [State.isOpen_eq_any, resetWith_chan? p k h]
    rfl
  · exact State.isOpen_of_ge (by simpa [State.nch, State.resetWith] using h)

/-- Settles O34. -/
theorem statAnswersTheOpenMask : Obligations.StatAnswersTheOpenMask := by
  refine ⟨by decide, rfl, fun s => ⟨s.openMask, rfl, fun k hk _ => s.getLsbD_openMask hk,
    fun k => State.getLsbD_openMask_of_ge⟩, fun w s hw hop hf => ?_, fun p => ?_⟩
  · refine step_of_fieldOutsideRow hw ?_
    rcases hf with h | h | h <;> simp [fieldOutsideRow, hop, h]
  · rw [← resetWith_openMask p]
    rfl

/-! ## START -/

theorem exec_start (v : Variant) (c : Nat) (s : State) : exec (Instr.start v c) s = .next (s.startCall v c) := by
  rw [exec_eq_next, resultOf_start]

/-- START leaves the channel open with the initial value (R142). -/
theorem State.startCall_chan? {s : State} {c : Nat} (v : Variant) (h : c < s.nch) :
    (s.startCall v c).chan? c = some (.opened v (initOf v)) := by
  rw [s.startCall_of_lt v c h, State.respond_chan?, s.setChan_chan?_self c _ h]

/-- The word of START (R63). -/
theorem encode_start (v : Variant) {c : Nat} (h : c < 16) : encode (Instr.start v c) =
    0x10000000#32 ||| (BitVec.ofNat 32 c <<< 24) ||| (v.code.zeroExtend 32 <<< 16) := by
  have hsel : (v.code.zeroExtend 8).zeroExtend 32 = v.code.zeroExtend 32 := BitVec.setWidth_setWidth (by decide)
  rw [encode, Instr.fields_start, toWord_of_channel h, hsel]
  rfl

/-- Settles O30. -/
theorem startOpensACall : Obligations.StartOpensACall := by
  refine fun v c => ⟨encode_start v, fun s hc => ?_, fun s hc => ?_, fun w hop hsel hdata => ?_,
    fun w s hw hop hf => ?_⟩
  · rw [exec_start, s.startCall_of_lt v c hc]
    rfl
  · rw [exec_start, s.startCall_of_ge v c hc]
    rfl
  · have hcode : (Fields.ofWord w).sel = v.code.zeroExtend 8 :=
      (eq_ofNat_of_toNat hsel).trans (BitVec.ofNat_toNat 8 v.code)
    exact decodeFields_of_start v (eq_ofNat_of_toNat hop) hcode (dataOf_eq_zero.mp hdata)
  · refine step_of_fieldOutsideRow hw ?_
    rcases hf with h | h
    · simp [fieldOutsideRow, hop, show 5 ≤ selOf w from h]
    · simp [fieldOutsideRow, hop, h]

/-! ## FEED -/

/-- What FEED to an open call changes of the state (R144). -/
theorem exec_feed_of_opened {s : State} {c : Nat} {v : Variant} {a : Word} (b : Byte)
    (h : s.chan? c = some (.opened v a)) :
    exec (.feed c b) s = .next { s with
      chans := s.chans.set c (.opened v (s.upd v a b)), queue := s.queue ++ [⟨.ok, 0x0000#16⟩] } :=
  congrArg Host.Outcome.next (State.feedCall_of_opened b h)

/-- Settles O31. -/
theorem feedUpdatesTheAccumulator : Obligations.FeedUpdatesTheAccumulator := by
  refine ⟨fun c b hc => ?_, fun c b v a s => exec_feed_of_opened b,
    fun c b v a s h hbuilt => hbuilt.upd_eq ▸ exec_feed_of_opened b h,
    fun c b s h => congrArg Host.Outcome.next (State.feedCall_of_idle b h),
    fun c b s h => congrArg Host.Outcome.next (s.feedCall_of_ge c b h), fun w hop hsel hhigh => ?_,
    fun w s hw hop hf => ?_⟩
  · rw [← zeroExtend_byteData]
    exact encode_eq_or_data rfl (toWord_of_channel_no_sel hc 2#4)
  · exact decode_of_fields (channelFits_toNat _) rfl hop rfl hsel (byteData_extractLsb' hhigh)
  · refine step_of_fieldOutsideRow hw ?_
    rcases hf with h | h <;> simp [fieldOutsideRow, hop, h]

/-! ## FINISH -/

/-- FINISH leaves the channel idle, whether or not a call was open on it (R146). -/
theorem State.finishCall_chan? {s : State} {c : Nat} (h : c < s.nch) : (s.finishCall c).chan? c = some .idle := by
  rcases hch : s.chan? c with _ | _ | ⟨v, a⟩
  · exact absurd ((s.chan?_eq_none c).mp hch) (by omega)
  · rw [State.finishCall_of_idle hch, State.raise_chan?, hch]
  · rw [State.finishCall_of_opened hch, State.respond_chan?, s.setChan_chan?_self c _ h]

/-- FINISH of a closed channel raises E_NOT_OPEN (R163). -/
theorem exec_finish_of_idle {s : State} {c : Nat} (h : s.chan? c = some .idle) :
    exec (.finish c) s = .next { s with queue := s.queue ++ [⟨.notOpen, 0x0000#16⟩] } :=
  congrArg Host.Outcome.next (State.finishCall_of_idle h)

/-- Settles O33; a second FINISH finds the channel idle, and FINISH after START the initial value. -/
theorem finishAnswersTheChecksumAndCloses : Obligations.FinishAnswersTheChecksumAndCloses := by
  refine ⟨fun c hc => ?_, fun c v a s h => congrArg Host.Outcome.next (State.finishCall_of_opened h),
    fun c s => exec_finish_of_idle, fun c s t hc hexec => ?_,
    fun c s h => congrArg Host.Outcome.next (s.finishCall_of_ge c h), fun c v s t hc hexec => ?_, fun w hop hsel hdata => ?_, fun w s hw hop hf => ?_⟩
  · exact toWord_of_channel_no_sel hc 3#4
  · cases hexec
    exact exec_finish_of_idle (State.finishCall_chan? hc)
  · cases (exec_start v c s).symm.trans hexec
    rw [← initOf_xor_xoroutOf v]
    exact congrArg Host.Outcome.next (State.finishCall_of_opened (State.startCall_chan? v hc))
  · exact decode_of_fields (channelFits_toNat _) rfl hop rfl hsel (dataOf_eq_zero.mp hdata).symm
  · refine step_of_fieldOutsideRow hw ?_
    rcases hf with h | h <;> simp [fieldOutsideRow, hop, h]

end Sys2Proof.Machine
end

section
/-! A call and what is interleaved with it: the channel of the call follows the bytes fed to it, and every command is
answered once (20_memory.md R52; 44_call_control.md R140, R147, R149). -/

namespace Sys2Proof.Machine

open Sys2Proof

/-! ## Streams of commands -/

/-- The state a stream of commands leaves. -/
def resultAll (l : List Instr) (s : State) : State := l.foldl (fun t i => resultOf i t) s

@[simp] theorem resultAll_nil (s : State) : resultAll [] s = s := rfl

@[simp] theorem resultAll_cons (i : Instr) (l : List Instr) (s : State) :
    resultAll (i :: l) s = resultAll l (resultOf i s) := rfl

@[simp] theorem resultAll_append (l l' : List Instr) (s : State) :
    resultAll (l ++ l') s = resultAll l' (resultAll l s) := List.foldl_append

/-- No command stops a stream (R164, R169). -/
theorem execAll_eq_next (l : List Instr) (s : State) : execAll l s = .next (resultAll l s) := by
  induction l generalizing s with
  | nil => rfl
  | cons i l ih => simp only [execAll, exec_eq_next, ih, resultAll_cons]

/-- A stream gets one response for each command, behind those queued before (R37). -/
theorem resultAll_queue (l : List Instr) (s : State) :
    ∃ rs : List Response, rs.length = l.length ∧ (resultAll l s).queue = s.queue ++ rs := by
  induction l generalizing s with
  | nil => exact ⟨[], rfl, (List.append_nil _).symm⟩
  | cons i l ih =>
    obtain ⟨r, chans, -, hres⟩ := resultOf_frame i s
    obtain ⟨rs, hlen, hq⟩ := ih (resultOf i s)
    refine ⟨r :: rs, congrArg (· + 1) hlen, ?_⟩
    rw [resultAll_cons, hq, hres, List.append_assoc, List.singleton_append]

/-- No command writes a table (R42). -/
theorem State.TablesBuilt.resultOf {s : State} (h : s.TablesBuilt) (i : Instr) : (resultOf i s).TablesBuilt := by
  obtain ⟨r, chans, -, hres⟩ := resultOf_frame i s
  rw [hres]
  exact ⟨h.td, h.tr⟩

/-! ## The channel of a call -/

/-- A command that does not name the channel leaves it (R51). -/
theorem resultOf_chan?_of_ne {i : Instr} {c : Nat} (h : i.channel? ≠ some c) (s : State) :
    (resultOf i s).chan? c = s.chan? c := by
  rcases hi : i.channel? with _ | k
  · obtain ⟨e, d, hres⟩ := resultOf_of_no_channel hi s
    rw [hres, State.respond_chan?]
  · exact resultOf_chan?_other hi (fun hck => h (hi.trans (congrArg some hck.symm))) s

/-- A command that does not name the channel feeds it nothing. -/
theorem fedTo_cons_of_ne {i : Instr} {c : Nat} (h : i.channel? ≠ some c) (l : List Instr) :
    fedTo c (i :: l) = fedTo c l := by
  cases i with
  | feed k b => exact if_neg fun hk => h (congrArg some hk)
  | _ => rfl

theorem fedTo_cons_feed (c : Nat) (b : Byte) (l : List Instr) : fedTo c (.feed c b :: l) = b :: fedTo c l := if_pos rfl

/-- Of the commands that name a channel, only FEED bounds no call on it. -/
theorem exists_feed_of_not_boundsCall {i : Instr} {c : Nat} (hi : i.channel? = some c) (h : boundsCall c i = false) :
    ∃ b, i = .feed c b := by
  rcases instr_kinds i with ⟨v, k, rfl⟩ | ⟨k, b, rfl⟩ | ⟨k, rfl⟩ | hnone
  · simp [boundsCall, hi] at h
  · cases hi
    exact ⟨b, rfl⟩
  · cases hi
    simp [boundsCall, Instr.channel?] at h
  · exact absurd (hnone.symm.trans hi) nofun

/-- A stream that bounds no call on the channel leaves the open call there, its accumulator updated by the bytes fed to
it, in order (R145, R147). -/
theorem resultAll_chan?_of_opened {c : Nat} {v : Variant} {l : List Instr} (hl : ∀ i ∈ l, boundsCall c i = false)
    {s : State} {a : Word} (hbuilt : s.TablesBuilt) (hopen : s.chan? c = some (.opened v a)) :
    (resultAll l s).chan? c = some (.opened v (accAfter v a (fedTo c l))) := by
  induction l generalizing s a with
  | nil => exact hopen
  | cons i l ih =>
    obtain ⟨hi, hrest⟩ := List.forall_mem_cons.mp hl
    by_cases hc : i.channel? = some c
    · obtain ⟨b, rfl⟩ := exists_feed_of_not_boundsCall hc hi
      obtain ⟨t, hexec, hfed⟩ := exec_feed_opened b hbuilt hopen
      cases (exec_eq_next (.feed c b) s).symm.trans hexec
      rw [fedTo_cons_feed]
      exact ih hrest (hbuilt.resultOf (.feed c b)) hfed
    · rw [fedTo_cons_of_ne hc]
      exact ih hrest (hbuilt.resultOf i) ((resultOf_chan?_of_ne hc s).trans hopen)

/-- A whole call: after START and the stream, FINISH answers the checksum of the bytes fed, and closes the channel
(R147). -/
theorem resultAll_call {c : Nat} (v : Variant) {l : List Instr} {s : State} (hl : ∀ i ∈ l, boundsCall c i = false)
    (hbuilt : s.TablesBuilt) (hc : c < s.nch) :
    (resultAll (Instr.start v c :: (l ++ [.finish c])) s).queue =
        (resultAll (Instr.start v c :: l) s).queue ++ [⟨.ok, crc v (fedTo c l)⟩] ∧
      (resultAll (Instr.start v c :: (l ++ [.finish c])) s).chan? c = some .idle := by
  have hstart : (resultOf (Instr.start v c) s).chan? c = some (.opened v (initOf v)) := by
    rw [resultOf_start, State.startCall_chan? v hc]
  have hopen := resultAll_chan?_of_opened hl (hbuilt.resultOf _) hstart
  have hfinish : resultAll (Instr.start v c :: (l ++ [.finish c])) s =
      (resultAll (Instr.start v c :: l) s).finishCall c := by
    rw [← List.cons_append, resultAll_append]
    rfl
  rw [hfinish]
  exact ⟨congrArg State.queue (State.finishCall_of_opened hopen),
    State.finishCall_chan? (State.lt_nch_of_chan? hopen)⟩

/-- Settles O35. -/
theorem interleavedCallAnswersItsChecksum : Obligations.InterleavedCallAnswersItsChecksum := by
  intro v c l s hbuilt hc hl
  obtain ⟨rs, hlen, hq⟩ := resultAll_queue (Instr.start v c :: l) s
  obtain ⟨hqueue, hidle⟩ := resultAll_call v hl hbuilt hc
  exact ⟨_, rs, execAll_eq_next _ s, hlen, hq ▸ hqueue, hidle⟩

/-- Settles O36. -/
theorem callsDependOnTheirBytesOnly : Obligations.CallsDependOnTheirBytesOnly := by
  refine ⟨fun v => ?_, fun v c c' l l' s s' hbuilt hbuilt' hc hc' hl hl' hfed => ?_⟩
  · exact ⟨initOf_xor_xoroutOf v, by cases v <;> decide⟩
  · obtain ⟨t, rs, hexec, hlen, hq, -⟩ := interleavedCallAnswersItsChecksum v c l s hbuilt hc hl
    obtain ⟨t', rs', hexec', hlen', hq', -⟩ := interleavedCallAnswersItsChecksum v c' l' s' hbuilt' hc' hl'
    exact ⟨t, t', rs, rs', _, hexec, hexec', hq, hfed ▸ hq', hlen, hlen'⟩

end Sys2Proof.Machine
end

section
/-! A host that serves its words through the ports, three turns a word, sees the stream of their commands
(10_state.md R36, R37; 30_encoding.md R70; 70_reset_and_hazards.md R194). -/

namespace Sys2Proof.Machine

open Sys2Proof

/-! ## The core behind its ports -/

/-- The core without its ports: no word offered or in flight, no schedule, and all responses, taken or not, in the
queue. -/
def State.collected (s : State) : State :=
  { s with cmds := [], turns := [], inFlight := none, taken := [], queue := s.taken ++ s.queue }

theorem State.collected_respond (s : State) (e : ErrCode) (d : Word) :
    (s.respond e d).collected = s.collected.respond e d := by
  simp only [State.collected, State.respond, List.append_assoc]

/-- A command does the same behind the ports. -/
theorem resultOf_collected (i : Instr) (s : State) : resultOf i s.collected = (resultOf i s).collected := by
  rcases hi : i.channel? with _ | c
  · have hres : ∃ e d, resultOf i s.collected = s.collected.respond e d ∧ resultOf i s = s.respond e d := by
      by_cases hstat : i = .stat
      · exact hstat ▸ ⟨.ok, s.openMask, rfl, rfl⟩
      · exact resultOf_congr_of_no_channel hi hstat rfl rfl
    obtain ⟨e, d, hcollected, h⟩ := hres
    rw [hcollected, h, State.collected_respond]
  · have heffect : SameEffect c s.collected s (resultOf i s.collected) (resultOf i s) :=
      resultOf_sameEffect (s := s.collected) (s' := s) rfl hi rfl rfl
    generalize resultOf i s.collected = t, resultOf i s = t' at heffect
    cases heffect with
    | answer e d => exact (State.collected_respond s e d).symm
    | write ch e d => exact (State.collected_respond (s.setChan c ch) e d).symm

/-- So does a word, whether it decodes or not. -/
theorem runWord_collected {w : Cmd} {s t : State} (h : runWord w s = .next t) :
    runWord w s.collected = .next t.collected := by
  cases hw : decode w with
  | error e =>
    simp only [runWord, hw] at h ⊢
    cases h
    exact congrArg Host.Outcome.next (State.collected_respond s .reserved 0#16).symm
  | ok i =>
    rw [runWord_of_ok hw, exec_eq_next] at h ⊢
    cases h
    rw [resultOf_collected]

/-! ## Serving words -/

/-- Out of reset and built, with nothing in flight, no response waiting, and room for one. -/
structure State.Vacant (s : State) : Prop where
  reset : s.inReset = false
  built : s.built = true
  inFlight : s.inFlight = none
  queue : s.queue = []
  rspq : 1 ≤ s.cfg.rspq

/-- Behind its ports a vacant core holds the responses taken. -/
theorem State.Vacant.collected_queue {s : State} (h : s.Vacant) : s.collected.queue = s.taken := by
  rw [State.collected, h.queue, List.append_nil]

/-- The core's move accepts the first word offered, where `cmd_ready_o = 1` (R36). -/
theorem coreMove_accepts {s : State} {w : Cmd} {ws : List Cmd} (hc : s.cmds = w :: ws) (hready : s.cmdReadyO = true) :
    coreMove s = .next { s with cmds := ws, inFlight := some w } := by
  obtain ⟨hr, hb, hf, -⟩ := State.cmdReadyO_eq_true.mp hready
  simp [coreMove, hr, hb, hf, State.acceptCmd, hc, hready]

/-- In a turn of its own a vacant core accepts the first word offered. -/
theorem State.Vacant.step_accepts {s : State} (h : s.Vacant) {w : Cmd} {ws : List Cmd} {rest : List Turn}
    (hc : s.cmds = w :: ws) (hturns : s.turns = .core :: rest) :
    step s = .next { s with cmds := ws, turns := rest, inFlight := some w } :=
  have hroom : s.queue.length < s.cfg.rspq := by
    rw [h.queue]
    exact h.rspq
  (step_of_turn hturns).trans (coreMove_accepts (s := { s with turns := rest }) hc
    (State.cmdReadyO_eq_true.mpr ⟨h.reset, h.built, h.inFlight, hroom⟩))

/-- The core completes the word in flight, and the host takes its response; behind the ports the word has been
completed. -/
theorem run_complete_take {s : State} {w : Cmd} {rest : List Turn} (hr : s.inReset = false) (hb : s.built = true)
    (hf : s.inFlight = some w) (hq : s.queue = []) (hrspq : 1 ≤ s.cfg.rspq)
    (hturns : s.turns = .core :: .take :: rest) :
    ∃ t : State, (∀ k, Host.Core.run Sys2Proof.core (k + 2) s = Host.Core.run Sys2Proof.core k t) ∧ t.Vacant ∧
      t.cmds = s.cmds ∧ t.turns = rest ∧ runWord w s.collected = .next t.collected := by
  obtain ⟨r, chans, -, hrun⟩ := runWord_frame w { s with turns := .take :: rest, inFlight := none }
  have hcomplete : step s = runWord w { s with turns := .take :: rest, inFlight := none } :=
    (step_of_turn hturns).trans (coreMove_of_inFlight (s := { s with turns := .take :: rest }) hr hb hf)
  have htake := step_takes (rest := rest) (r := r) (rs := []) (s := { s with
    turns := .take :: rest, inFlight := none, chans := chans, queue := s.queue ++ [r] }) rfl hr
    (congrArg (· ++ [r]) hq)
  refine ⟨{ s with turns := rest, inFlight := none, chans := chans, queue := [], taken := s.taken ++ [r] },
    fun k => ?_, ⟨hr, hb, rfl, rfl, hrspq⟩, rfl, rfl, (runWord_collected hrun).trans ?_⟩
  · rw [run_succ_of_step (hcomplete.trans hrun), run_succ_of_step htake]
  · simp only [State.collected, hq, List.nil_append, List.append_nil]

/-- Served one word, a vacant core is vacant again, and behind the ports the word has been completed (R193, R194). -/
theorem State.Vacant.serve {s : State} (h : s.Vacant) {w : Cmd} {ws : List Cmd} {rest : List Turn}
    (hc : s.cmds = w :: ws) (hturns : s.turns = .core :: .core :: .take :: rest) :
    ∃ t : State, (∀ k, Host.Core.run Sys2Proof.core (k + 3) s = Host.Core.run Sys2Proof.core k t) ∧ t.Vacant ∧
      t.cmds = ws ∧ t.turns = rest ∧ runWord w s.collected = .next t.collected := by
  obtain ⟨t, hrun, ht⟩ := run_complete_take (rest := rest) (w := w)
    (s := { s with cmds := ws, turns := .core :: .take :: rest, inFlight := some w }) h.reset h.built rfl h.queue
    h.rspq rfl
  exact ⟨t, fun k => (run_succ_of_step (h.step_accepts hc hturns) (k + 2)).trans (hrun k), ht⟩

/-- Served a stream of commands, the core has run the stream behind its ports. -/
theorem State.Vacant.serve_stream {l : List Instr} (hwf : ∀ i ∈ l, i.WellFormed) {s : State} (h : s.Vacant)
    (hc : s.cmds = l.map encode) (hturns : s.turns = serveTurns l.length) :
    ∃ t : State, Host.Core.run Sys2Proof.core (3 * l.length) s = .next t ∧ t.Vacant ∧ t.cmds = [] ∧
      t.collected = resultAll l s.collected := by
  induction l generalizing s with
  | nil => exact ⟨s, rfl, h, hc, rfl⟩
  | cons i l ih =>
    obtain ⟨hi, hrest⟩ := List.forall_mem_cons.mp hwf
    obtain ⟨u, hrun, hvacant, hcmds, hturns', hword⟩ := h.serve hc hturns
    obtain ⟨t, hrunrest, hvacant', hcmds', hcollected⟩ := ih hrest hvacant hcmds hturns'
    rw [runWord_of_ok (decodeInvertsEncode i hi), exec_eq_next] at hword
    refine ⟨t, (hrun _).trans hrunrest, hvacant', hcmds', ?_⟩
    rw [hcollected, resultAll_cons, Host.Outcome.next.inj hword]

/-! ## Serving a call -/

theorem length_crcExpansion (c : Nat) (v : Variant) (d : List Byte) : (crcExpansion c v d).length = d.length + 2 := by
  simp [crcExpansion, feedsExpansion]

/-- The commands of a call are well-formed where its channel fits the word (R62). -/
theorem wellFormed_of_mem_crcExpansion {c : Nat} {v : Variant} {d : List Byte} {i : Instr} (hc : c < 16)
    (hi : i ∈ crcExpansion c v d) : i.WellFormed := by
  have hfits : channelFits c = true := decide_eq_true hc
  simp only [crcExpansion, feedsExpansion, List.mem_cons, List.mem_append, List.mem_map, List.not_mem_nil,
    or_false] at hi
  rcases hi with rfl | ⟨b, -, rfl⟩ | rfl
  · exact (Instr.wf_start v c).trans hfits
  · exact hfits
  · exact hfits

/-- The FEEDs of a call feed its bytes, in order (R70). -/
theorem fedTo_feedsExpansion (c : Nat) (d : List Byte) : fedTo c (feedsExpansion c d) = d := by
  induction d with
  | nil => rfl
  | cons b d ih => exact (fedTo_cons_feed c b _).trans (congrArg (b :: ·) ih)

/-- FEEDs bound no call. -/
theorem boundsCall_of_mem_feedsExpansion {c : Nat} {d : List Byte} {i : Instr} (hi : i ∈ feedsExpansion c d) :
    boundsCall c i = false := by
  obtain ⟨b, -, rfl⟩ := List.mem_map.mp hi
  simp [boundsCall, Instr.startVariant?]

/-- Every FEED to an open call answers `(0, 0)` (R144). -/
theorem resultAll_feeds_queue {c : Nat} {v : Variant} (d : List Byte) {s : State} {a : Word}
    (hopen : s.chan? c = some (.opened v a)) :
    (resultAll (feedsExpansion c d) s).queue = s.queue ++ List.replicate d.length ⟨.ok, 0#16⟩ := by
  induction d generalizing s a with
  | nil => exact (List.append_nil _).symm
  | cons b d ih =>
    have hfeed := State.feedCall_of_opened b hopen
    have hopen' : (s.feedCall c b).chan? c = some (.opened v (s.upd v a b)) := by
      rw [hfeed, State.respond_chan?, s.setChan_chan?_self c _ (State.lt_nch_of_chan? hopen)]
    refine (ih hopen').trans ?_
    rw [hfeed, State.respond_queue, List.append_assoc, State.setChan_queue]
    rfl

/-- START and the FEEDs of a call answer `(0, 0)` each (R142, R144). -/
theorem resultAll_start_feeds_queue {c : Nat} (v : Variant) (d : List Byte) {s : State} (hc : c < s.nch) :
    (resultAll (Instr.start v c :: feedsExpansion c d) s).queue =
      s.queue ++ List.replicate (d.length + 1) ⟨.ok, 0#16⟩ := by
  rw [resultAll_cons, resultOf_start, resultAll_feeds_queue d (State.startCall_chan? v hc), s.startCall_of_lt v c hc,
    State.respond_queue, List.append_assoc]
  rfl

/-- Settles O55: behind the ports the served words are one call. -/
theorem servedCallReturnsTheChecksum : Obligations.ServedCallReturnsTheChecksum := by
  intro s v c d hinv hr hready hf hq hc hcmds hturns
  have hvacant : s.Vacant := ⟨hr, hready, hf, hq, hinv.rspq_pos⟩
  have hwf : ∀ i ∈ crcExpansion c v d, i.WellFormed := fun i =>
    wellFormed_of_mem_crcExpansion (hc.trans_le hinv.nch_le)
  obtain ⟨htd, htr⟩ := hinv.tablesBuilt hready
  have hbounds : ∀ i ∈ feedsExpansion c d, boundsCall c i = false := fun i => boundsCall_of_mem_feedsExpansion
  obtain ⟨hqueue, hidle⟩ := resultAll_call (s := s.collected) v hbounds ⟨htd, htr⟩ hc
  rw [resultAll_start_feeds_queue (s := s.collected) v d hc, hvacant.collected_queue, fedTo_feedsExpansion] at hqueue
  rw [← length_crcExpansion c v] at hturns ⊢
  obtain ⟨t, hrun, hvacant', hcmds', hcollected⟩ := hvacant.serve_stream hwf hcmds hturns
  refine ⟨t, hrun, ?_, hcmds', hvacant'.queue, (congrArg (State.chan? · c) hcollected).trans hidle⟩
  calc t.taken = t.collected.queue := hvacant'.collected_queue.symm
    _ = (resultAll (crcExpansion c v d) s.collected).queue := congrArg State.queue hcollected
    _ = _ := hqueue

end Sys2Proof.Machine
end

section
/-! Errors and waiting: the one error a completed word is answered with, what an error leaves unchanged, and that no step
stops the machine (60_exceptions.md R160 to R165, R169, R176). -/

namespace Sys2Proof.Machine

open Sys2Proof

/-! ## The error that applies -/

/-- The error of FEED and FINISH on channel `c`: E_CHANNEL, then E_NOT_OPEN (R165). -/
def State.callError (s : State) (c : Nat) : ErrCode :=
  if s.nch ≤ c then .channel else if s.isOpen c then .ok else .notOpen

theorem State.callError_of_ge {s : State} {c : Nat} (h : s.nch ≤ c) : s.callError c = .channel := if_pos h

/-- On a channel the core has, the error is E_NOT_OPEN or none, as its flag says. -/
theorem State.callError_of_chan? {s : State} {c : Nat} {ch : Channel} (h : s.chan? c = some ch) :
    s.callError c = if ch.isOpen then .ok else .notOpen := by
  have hopen : s.isOpen c = ch.isOpen := by rw [State.isOpen_eq_any, h, Option.any_some]
  rw [State.callError, if_neg (Nat.not_le.mpr (State.lt_nch_of_chan? h)), hopen]

/-- A word selects some row of the opcode map exactly when it decodes (R64). -/
theorem any_selects_iff {w : Cmd} : opcodeRows.any (fun r => r.selects w) = true ↔ ∃ i, decode w = .ok i := by
  refine ⟨fun h => ?_, fun ⟨i, hi⟩ => ?_⟩
  · obtain ⟨r, hr, hsel⟩ := List.any_eq_true.mp h
    obtain ⟨i, hi, -⟩ := exists_decode_of_selects_mem hr hsel
    exact ⟨i, hi⟩
  · obtain ⟨-, -, hsel, -, -⟩ := decode_spec hi
    exact List.any_eq_true.mpr ⟨i.row, i.row_mem, hsel⟩

theorem expectedError_of_error {w : Cmd} {e : DecodeError} (h : decode w = .error e) (s : State) :
    expectedError s w = .reserved := by
  refine if_pos fun hany => ?_
  obtain ⟨i, hi⟩ := any_selects_iff.mp hany
  cases h.symm.trans hi

/-- The error of a well-formed command's word, by the command's opcode and channel (R165). -/
theorem expectedError_encode {i : Instr} (h : i.WellFormed) (s : State) :
    expectedError s (encode i) =
      if i.fields.op.toNat ∈ [1, 2, 3] ∧ s.nch ≤ i.fields.ch.toNat then .channel
      else if i.fields.op.toNat ∈ [2, 3] ∧ ¬ s.isOpen i.fields.ch.toNat then .notOpen else .ok := by
  have hany := any_selects_iff.mpr ⟨i, decodeInvertsEncode i h⟩
  rw [expectedError, if_neg (not_not_intro hany), opOf_eq, chOf_eq, ofWord_encode]

theorem expectedError_start {v : Variant} {c : Nat} (h : (Instr.start v c).WellFormed) (s : State) :
    expectedError s (encode (.start v c)) = if s.nch ≤ c then .channel else .ok := by
  have hc := toNat_ofNat_channel ((Instr.wf_start v c).symm.trans h)
  rw [expectedError_encode h, Instr.fields_start, hc]
  simp

theorem expectedError_feed {c : Nat} {b : Byte} (h : (Instr.feed c b).WellFormed) (s : State) :
    expectedError s (encode (.feed c b)) = s.callError c := by
  rw [expectedError_encode h, Instr.fields, toNat_ofNat_channel h, State.callError]
  cases s.isOpen c <;> simp

theorem expectedError_finish {c : Nat} (h : (Instr.finish c).WellFormed) (s : State) :
    expectedError s (encode (.finish c)) = s.callError c := by
  rw [expectedError_encode h, Instr.fields, toNat_ofNat_channel h, State.callError]
  cases s.isOpen c <;> simp

/-- The word of a command that names no channel has no error. -/
theorem expectedError_of_no_channel {i : Instr} (h : i.WellFormed) (hi : i.channel? = none) (s : State) :
    expectedError s (encode i) = .ok := by
  have hop : i.fields.op.toNat ∉ [1, 2, 3] := by
    rw [Instr.channel?_eq h] at hi
    simpa using hi
  have hop' : i.fields.op.toNat ∉ [2, 3] := fun hmem => hop (List.mem_cons_of_mem 1 hmem)
  rw [expectedError_encode h, if_neg fun hcall => hop hcall.1, if_neg fun hcall => hop' hcall.1]

/-- A core with 16 channels has every channel a word can name (R162). -/
theorem expectedError_ne_channel {s : State} (hn : s.nch = 16) (w : Cmd) : expectedError s w ≠ .channel := by
  have hch : chOf w < s.nch := hn ▸ (w.extractLsb' 24 4).isLt
  unfold expectedError
  split
  · nofun
  · rw [if_neg fun hcall => absurd hcall.2 (Nat.not_le.mpr hch)]
    split <;> nofun

/-! ## What a command answers -/

/-- From `s` to `t` a command is answered with the code `e`: done, it responds and may write channels; in error, it raises
`e` and does nothing else (R164). -/
inductive Answers (s : State) : ErrCode → State → Prop
  | done (chans : List Channel) (d : Word) :
      Answers s .ok { s with chans := chans, queue := s.queue ++ [⟨.ok, d⟩] }
  | error (e : ErrCode) (he : e ≠ .ok) : Answers s e (s.raise e)

/-- The response carries the code; an error carries no data, and is the whole of what the command did. -/
theorem Answers.response {s t : State} {e : ErrCode} (h : Answers s e t) :
    ∃ d, t.queue = s.queue ++ [⟨e, d⟩] ∧ (e ≠ .ok → d = 0#16 ∧ t = s.raise e) := by
  cases h with
  | done chans d => exact ⟨d, rfl, absurd rfl⟩
  | error e he => exact ⟨0#16, rfl, fun _ => ⟨rfl, rfl⟩⟩

theorem State.startCall_answers (s : State) (v : Variant) (c : Nat) :
    Answers s (if s.nch ≤ c then .channel else .ok) (s.startCall v c) := by
  rcases Nat.lt_or_ge c s.nch with h | h
  · rw [s.startCall_of_lt v c h, if_neg (Nat.not_le.mpr h)]
    exact .done _ _
  · rw [s.startCall_of_ge v c h, if_pos h]
    exact .error _ nofun

theorem State.feedCall_answers (s : State) (c : Nat) (b : Byte) : Answers s (s.callError c) (s.feedCall c b) := by
  rcases h : s.chan? c with _ | _ | ⟨v, a⟩
  · have hc := (s.chan?_eq_none c).mp h
    rw [s.feedCall_of_ge c b hc, State.callError_of_ge hc]
    exact .error _ nofun
  · rw [State.feedCall_of_idle b h, State.callError_of_chan? h]
    exact .error _ nofun
  · rw [State.feedCall_of_opened b h, State.callError_of_chan? h]
    exact .done _ _

theorem State.finishCall_answers (s : State) (c : Nat) : Answers s (s.callError c) (s.finishCall c) := by
  rcases h : s.chan? c with _ | _ | ⟨v, a⟩
  · have hc := (s.chan?_eq_none c).mp h
    rw [s.finishCall_of_ge c hc, State.callError_of_ge hc]
    exact .error _ nofun
  · rw [State.finishCall_of_idle h, State.callError_of_chan? h]
    exact .error _ nofun
  · rw [State.finishCall_of_opened h, State.callError_of_chan? h]
    exact .done _ _

/-- A command that names no channel does not err. -/
theorem resultOf_answers_of_no_channel {i : Instr} (hi : i.channel? = none) (s : State) :
    Answers s .ok (resultOf i s) := by
  cases i with
  | nop | stat | tblrdD | tblrdR | step8d | step8r | rev8 | rev16 => exact .done s.chans _
  | _ => cases hi

/-- A well-formed command is answered with the error of its word. -/
theorem resultOf_answers {i : Instr} (h : i.WellFormed) (s : State) :
    Answers s (expectedError s (encode i)) (resultOf i s) := by
  rcases instr_kinds i with ⟨v, c, rfl⟩ | ⟨c, b, rfl⟩ | ⟨c, rfl⟩ | hi
  · rw [expectedError_start h, resultOf_start]
    exact s.startCall_answers v c
  · rw [expectedError_feed h]
    exact s.feedCall_answers c b
  · rw [expectedError_finish h]
    exact s.finishCall_answers c
  · rw [expectedError_of_no_channel h hi]
    exact resultOf_answers_of_no_channel hi s

/-- Completing any word answers it with the first error that applies (R165). -/
theorem runWord_answers (w : Cmd) (s : State) : ∃ t, runWord w s = .next t ∧ Answers s (expectedError s w) t := by
  rcases runWord_cases w s with ⟨e, he, h⟩ | ⟨i, hi, h⟩
  · rw [expectedError_of_error he]
    exact ⟨_, h, .error _ nofun⟩
  · obtain ⟨hwf, rfl⟩ := encodeInvertsDecode w i hi
    exact ⟨_, h, resultOf_answers hwf s⟩

/-- The step that completes a word answers it so. -/
theorem step_answers {s : State} {w : Cmd} (h : s.Completing w) :
    ∃ t, step s = .next t ∧ Answers { s with inFlight := none } (expectedError s w) t := by
  rw [step_of_completing h]
  exact runWord_answers w { s with inFlight := none }

/-- Settles O7: the codes, the answer to any word, and the core that has all 16 channels. -/
theorem firstApplicableErrorIsReported : Obligations.FirstApplicableErrorIsReported := by
  refine ⟨⟨rfl, rfl, rfl, rfl⟩, fun s w hw => ?_, fun s w hn => expectedError_ne_channel hn w⟩
  obtain ⟨t, hstep, hans⟩ := step_answers hw
  obtain ⟨d, hq, herr⟩ := hans.response
  exact ⟨t, d, hstep, hq, fun he => (herr he).1⟩

/-- After a command, erring or not, the core is ready exactly where its queue has room for one more response (R36). -/
theorem cmdReadyO_of_completing {s t : State} {w : Cmd} (h : s.Completing w) (hstep : step s = .next t) :
    t.cmdReadyO = decide (s.queue.length + 1 < s.cfg.rspq) := by
  obtain ⟨r, chans, -, hrun⟩ := runWord_frame w { s with inFlight := none }
  cases ((step_of_completing h).trans hrun).symm.trans hstep
  rw [Bool.eq_iff_iff, State.cmdReadyO_eq_true, decide_eq_true_eq, List.length_append, List.length_singleton]
  exact ⟨fun ⟨_, _, _, hroom⟩ => hroom, fun hroom => ⟨h.reset, h.built, rfl, hroom⟩⟩

/-- Settles O41: readiness is that of any command, and the state is that of the raise. -/
theorem errorsChangeNoState : Obligations.ErrorsChangeNoState := by
  intro s t w r hw hstep hq
  refine ⟨cmdReadyO_of_completing hw hstep, fun he => ?_⟩
  obtain ⟨t', hstep', hans⟩ := step_answers hw
  cases hstep'.symm.trans hstep
  obtain ⟨d, hq', herr⟩ := hans.response
  obtain rfl : r = ⟨expectedError s w, d⟩ := by simpa using hq.symm.trans hq'
  obtain ⟨rfl, ht⟩ := herr he
  exact ⟨rfl, ht⟩

/-! ## Every step is made -/

theorem exists_coreMove (s : State) : ∃ t, coreMove s = .next t := by
  rcases coreMove_cases s with ⟨-, h⟩ | ⟨-, -, h⟩ | ⟨-, -, -, h⟩ | ⟨w, -, -, -, h⟩
  · exact ⟨_, h⟩
  · exact ⟨_, h⟩
  · exact ⟨_, h⟩
  · obtain ⟨r, chans, -, hrun⟩ := runWord_frame w { s with inFlight := none }
    exact ⟨_, h.trans hrun⟩

theorem exists_takeTurn (u : Turn) (s : State) : ∃ t, takeTurn u s = .next t := by
  cases u with
  | core => exact exists_coreMove s
  | offer w => exact ⟨_, rfl⟩
  | take => exact ⟨_, rfl⟩
  | rst level => exact ⟨_, rfl⟩

/-- Settles O51: every turn is made, and the core's move is too. -/
theorem everyStepAnswersANextState : Obligations.EveryStepAnswersANextState := by
  intro s
  rw [step_eq_takeTurn]
  exact exists_takeTurn _ _

/-- Built, out of reset and with nothing in flight, a core that is offered nothing or is not ready stays as it is
(R176, log 19). -/
theorem coreMove_waits {s : State} (hr : s.inReset = false) (hb : s.built = true) (hf : s.inFlight = none)
    (hc : s.cmds = [] ∨ s.cmdReadyO = false) : coreMove s = .next s := by
  have haccept : s.acceptCmd = s := by
    rcases s.acceptCmd_cases with ⟨w, ws, hcmds, hready, -⟩ | ⟨-, h⟩
    · simp [hcmds, hready] at hc
    · exact h
  simp [coreMove, hr, hb, hf, haccept]

/-- Settles O48. -/
theorem coreWithoutWorkIdles : Obligations.CoreWithoutWorkIdles := by
  intro s hinv hrun hf hc hq
  have hroom : s.queue.length < s.cfg.rspq := by
    rw [hq]
    exact hinv.rspq_pos
  refine ⟨State.cmdReadyO_eq_true.mpr ⟨hrun.reset, hrun.built, hf, hroom⟩, by rw [State.rspValidO, hq]; rfl, ?_⟩
  rw [step_of_no_turns hrun.turns, coreMove_waits hrun.reset hrun.built hf (.inl hc)]

end Sys2Proof.Machine
end

section
/-! Reset, the build, back-pressure, and a served stream of any words (70_reset_and_hazards.md R180 to R182, R188, R189,
R193, R194). -/

namespace Sys2Proof.Machine

open Sys2Proof

/-! ## Reset -/

/-- Nothing is left of any command: no call is open, no command is in flight, and no response is queued (R180). -/
structure State.Cleared (s : State) : Prop where
  idle : ∀ c, c < s.nch → s.chan? c = some .idle
  queue : s.queue = []
  inFlight : s.inFlight = none

theorem State.clearByReset_cleared (s : State) : s.clearByReset.Cleared :=
  ⟨fun c hc => s.clearByReset_chan? c (s.clearByReset_nch ▸ hc), rfl, rfl⟩

/-- A core that is not ready is as reset left it (R180, R182). -/
theorem State.Inv.cleared {s : State} (h : s.Inv) (hb : s.built = false) : s.Cleared where
  idle c hc := by
    rw [State.chan?, List.getElem?_eq_getElem hc, h.unbuilt_idle hb _ (List.getElem_mem hc)]
  queue := h.unbuilt_queue hb
  inFlight := h.unbuilt_inFlight hb

/-- The turn that asserts `rst` resets the core (R180). -/
theorem step_asserts {s : State} {rest : List Turn} (hu : s.turns = .rst s.cfg.rstActive :: rest) :
    step s = .next (State.clearByReset { s with turns := rest, rst := s.cfg.rstActive }) :=
  (step_of_turn hu).trans (congrArg Host.Outcome.next (State.driveReset_assert { s with turns := rest }))

/-! ## Not ready -/

/-- A move of the builder writes one table entry or sets the build status, and nothing else (R86). -/
theorem State.buildStep_progress (s : State) :
    (∃ td tr, td.length + tr.length = s.td.length + s.tr.length + 1 ∧ s.buildStep = { s with td := td, tr := tr }) ∨
      s.buildStep = { s with built := true } := by
  rcases s.buildStep_cases with ⟨-, h⟩ | ⟨-, -, h⟩ | ⟨-, -, h⟩
  · exact .inl ⟨_, _, by rw [List.length_append, List.length_singleton]; omega, h⟩
  · exact .inl ⟨_, _, by rw [List.length_append, List.length_singleton]; omega, h⟩
  · exact .inr h

/-- From `s` to the cleared core `t` no command is accepted, answered or lost (R182). -/
structure Waits (s t : State) : Prop where
  cleared : t.Cleared
  nch : t.nch = s.nch
  taken : t.taken = s.taken
  cmds : ∃ ws, t.cmds = s.cmds ++ ws

theorem State.clearByReset_waits (s : State) : Waits s s.clearByReset :=
  ⟨s.clearByReset_cleared, s.clearByReset_nch, rfl, [], (List.append_nil _).symm⟩

/-- A core that is not ready waits, whatever the turn (R180, R182). -/
theorem Move.waits {s t : State} {u : Turn} (m : Move s u t) (h : s.Inv) (hb : s.built = false) : Waits s t := by
  obtain ⟨hidle, hq, hf⟩ := h.cleared hb
  have hcmds : ∃ ws, s.cmds = s.cmds ++ ws := ⟨[], (List.append_nil _).symm⟩
  cases m with
  | coreHeld hr => exact s.clearByReset_waits
  | takeHeld hr => exact s.clearByReset_waits
  | assertReset level hl => exact { State.clearByReset_waits { s with rst := level } with }
  | build hr hb' =>
    rcases s.buildStep_progress with ⟨td, tr, -, hs⟩ | hs
    · exact hs ▸ ⟨⟨hidle, hq, hf⟩, rfl, rfl, hcmds⟩
    · exact hs ▸ ⟨⟨hidle, hq, hf⟩, rfl, rfl, hcmds⟩
  | offer w => exact ⟨⟨hidle, hq, hf⟩, rfl, rfl, [w], rfl⟩
  | release level hl => exact ⟨⟨hidle, hq, hf⟩, rfl, rfl, hcmds⟩
  | takeNone hr hq' => exact ⟨⟨hidle, hq, hf⟩, rfl, rfl, hcmds⟩
  | take r rs hr hq' => exact absurd (hq.symm.trans hq') nofun
  | accept w ws hr hb' hf' hc hready => exact absurd (hb.symm.trans hb') nofun
  | wait hr hb' hf' hc => exact absurd (hb.symm.trans hb') nofun
  | complete w t hr hb' hf' hrun => exact absurd (hb.symm.trans hb') nofun

theorem step_waits {s t : State} (h : s.Inv) (hb : s.built = false) (hstep : step s = .next t) : Waits s t :=
  { (step_move hstep).waits (h.withTurns _) hb with }

/-- No turn of a core in reset, the release among them, makes it ready: the builder does not move (R180). -/
theorem Move.keeps_unbuilt {s t : State} {u : Turn} (m : Move s u t) (hreset : s.inReset = true)
    (hb : s.built = false) : t.built = false := by
  cases m with
  | coreHeld hr => rfl
  | takeHeld hr => rfl
  | assertReset level hl => rfl
  | offer w => exact hb
  | release level hl => exact hb
  | build hr hb' => exact absurd (hreset.symm.trans hr) nofun
  | accept w ws hr hb' hf hc hready => exact absurd (hreset.symm.trans hr) nofun
  | wait hr hb' hf hc => exact absurd (hreset.symm.trans hr) nofun
  | complete w t hr hb' hf hrun => exact absurd (hreset.symm.trans hr) nofun
  | takeNone hr hq => exact absurd (hreset.symm.trans hr) nofun
  | take r rs hr hq => exact absurd (hreset.symm.trans hr) nofun

/-- Settles O43: the assertion, and then the turns made while it lasts. -/
theorem assertedResetClearsTheCore : Obligations.AssertedResetClearsTheCore := by
  refine ⟨fun s rest hu => ?_, fun s t h hr hstep => ?_⟩
  · obtain ⟨⟨hidle, hq, hf⟩, hnch, htaken, -⟩ :=
      State.clearByReset_waits { s with turns := rest, rst := s.cfg.rstActive }
    exact ⟨_, step_asserts hu, beq_self_eq_true _, hnch, fun c hc => hidle c (hnch ▸ hc), hq, hf, rfl, htaken, rfl⟩
  · have hb := h.reset_unbuilt hr
    obtain ⟨⟨hidle, hq, hf⟩, hnch, htaken, -⟩ := step_waits h hb hstep
    exact ⟨hnch, fun c hc => hidle c (hnch ▸ hc), hq, hf, (step_move hstep).keeps_unbuilt hr hb, htaken⟩

/-- Settles O46: the channel is idle after reset. -/
theorem resetLosesTheCall : Obligations.ResetLosesTheCall := by
  intro s rest c b hu hc
  obtain ⟨⟨hidle, hq, hf⟩, hnch, -, -⟩ := State.clearByReset_waits { s with turns := rest, rst := s.cfg.rstActive }
  refine ⟨_, step_asserts hu, hq, hf, fun u hchan => ?_⟩
  have hidle' : u.chan? c = some .idle := hchan.trans (hidle c (hnch ▸ hc))
  exact ⟨congrArg Host.Outcome.next (State.feedCall_of_idle b hidle'), exec_finish_of_idle hidle'⟩

/-! ## The build ends -/

/-- Out of reset and not ready, a core left alone builds (R86). -/
theorem step_builds {s : State} (hturns : s.turns = []) (hr : s.inReset = false) (hb : s.built = false) :
    step s = .next s.buildStep := by
  simp [step_of_no_turns hturns, coreMove, hr, hb]

/-- Left alone out of reset, the builder makes the core ready and leaves the offered words: each of its moves leaves one
entry fewer to write (R181). -/
theorem State.Inv.run_build {s : State} (h : s.Inv) (hr : s.inReset = false) (hb : s.built = false)
    (hturns : s.turns = []) :
    ∃ (k : Nat) (t : State), Host.Core.run Sys2Proof.core k s = .next t ∧ t.Inv ∧ t.readyO = true ∧
      t.cmds = s.cmds := by
  induction hn : 512 - (s.td.length + s.tr.length) using Nat.strong_induction_on generalizing s with
  | _ n ih =>
    have hstep := step_builds hturns hr hb
    have hinv := h.buildStep hr hb
    rcases s.buildStep_progress with ⟨td, tr, hlen, hs⟩ | hs
    · rw [hs] at hstep hinv
      have htd : td.length ≤ 256 := hinv.td_len
      have htr : tr.length ≤ 256 := hinv.tr_len
      obtain ⟨k, t, hrun, ht⟩ := ih (512 - (td.length + tr.length)) (by omega) hinv hr hb hturns rfl
      exact ⟨k + 1, t, (run_succ_of_step hstep k).trans hrun, ht⟩
    · rw [hs] at hstep hinv
      exact ⟨1, _, run_succ_of_step hstep 0, hinv, rfl, rfl⟩

/-- Settles O44: the wait, step by step, and the build, which ends with the tables of the invariant. -/
theorem commandsWaitUntilTheTablesAreBuilt : Obligations.CommandsWaitUntilTheTablesAreBuilt := by
  refine ⟨fun s t h hready hstep => ?_, fun s h hready hr hturns => ?_⟩
  · obtain ⟨⟨-, hq, hf⟩, -, htaken, hcmds⟩ := step_waits h hready hstep
    exact ⟨State.cmdReadyO_of_not_readyO hready, hf, hq, htaken, hcmds⟩
  · obtain ⟨k, t, hrun, hinv, ht, hcmds⟩ := h.run_build hr hready hturns
    have hbuilt := hinv.tablesBuilt ht
    exact ⟨k, t, hrun, ht, hcmds, fun i => ⟨hbuilt.tblRead .direct i, hbuilt.tblRead .reflected i⟩⟩

/-! ## The full queue -/

/-- With a full queue the core is not ready for a command (R36, R188). -/
theorem State.cmdReadyO_of_full {s : State} (hq : s.queue.length = s.cfg.rspq) : s.cmdReadyO = false := by
  refine Bool.eq_false_iff.mpr fun hready => ?_
  obtain ⟨-, -, -, hroom⟩ := State.cmdReadyO_eq_true.mp hready
  exact absurd hq hroom.ne

/-- A core with a full queue is out of reset and built, and has nothing in flight: the queue keeps room for the response
of a command in flight (log 7). -/
theorem State.Inv.of_full {s : State} (h : s.Inv) (hq : s.queue.length = s.cfg.rspq) :
    s.inReset = false ∧ s.built = true ∧ s.inFlight = none := by
  have hb : s.built = true := by
    refine Bool.eq_true_of_not_eq_false fun hb => ?_
    rw [h.unbuilt_queue hb] at hq
    exact absurd h.rspq_pos (by rw [← hq]; decide)
  refine ⟨Bool.eq_false_iff.mpr fun hr => absurd (hb.symm.trans (h.reset_unbuilt hr)) nofun, hb, ?_⟩
  have hroom := h.room
  have hempty : s.inFlight.toList.length = 0 := by omega
  exact Option.toList_eq_nil_iff.mp (List.length_eq_zero_iff.mp hempty)

/-- While the queue is full, a turn of the core or an offer leaves the responses, and accepts nothing (R188). -/
theorem Move.keeps_full {s t : State} {u : Turn} (m : Move s u t) (h : s.Inv) (hq : s.queue.length = s.cfg.rspq)
    (htake : u ≠ .take) (hrst : ∀ l, u ≠ .rst l) :
    t.queue = s.queue ∧ t.cmdReadyO = false ∧ t.inFlight = none ∧ ∃ ws, t.cmds = s.cmds ++ ws := by
  have hnot := State.cmdReadyO_of_full hq
  obtain ⟨hreset, hbuilt, hfree⟩ := h.of_full hq
  cases m with
  | wait hr hb hf hc => exact ⟨rfl, hnot, hfree, [], (List.append_nil _).symm⟩
  | offer w => exact ⟨rfl, hnot, hfree, [w], rfl⟩
  | coreHeld hr => exact absurd (hreset.symm.trans hr) nofun
  | build hr hb => exact absurd (hbuilt.symm.trans hb) nofun
  | accept w ws hr hb hf hc hready => exact absurd (hnot.symm.trans hready) nofun
  | complete w t hr hb hf hrun => exact absurd (hfree.symm.trans hf) nofun
  | takeHeld => exact absurd rfl htake
  | takeNone => exact absurd rfl htake
  | take => exact absurd rfl htake
  | assertReset level => exact absurd rfl (hrst level)
  | release level => exact absurd rfl (hrst level)

/-- The turn a step makes, where it is not the core's, heads the schedule (log 6). -/
theorem headD_core_ne {turns : List Turn} {u : Turn} (hcore : u ≠ .core) (h : turns.head? ≠ some u) :
    turns.headD .core ≠ u := by
  cases turns with
  | nil => exact hcore.symm
  | cons v rest => exact fun hv => h (congrArg some hv)

/-- A state that steps to itself stays for good. -/
theorem run_of_step_self {s : State} (h : step s = .next s) (k : Nat) : Host.Core.run Sys2Proof.core k s = .next s := by
  induction k with
  | zero => exact run_zero s
  | succ k ih => exact (run_succ_of_step h k).trans ih

/-- Settles O45: the turns that leave the queue full, the core left alone, and the host's take. -/
theorem fullQueueHoldsTheCore : Obligations.FullQueueHoldsTheCore := by
  intro s h hq
  have hnot := State.cmdReadyO_of_full hq
  obtain ⟨hr, hb, hf⟩ := h.of_full hq
  refine ⟨hnot, fun t hstep htake hrst => ?_, fun hturns => ?_, fun rest => ?_⟩
  · exact (step_move hstep).keeps_full (h.withTurns _) hq (headD_core_ne nofun htake) fun l =>
      headD_core_ne nofun (hrst l)
  · exact run_of_step_self ((step_of_no_turns hturns).trans (coreMove_waits hr hb hf (.inr hnot)))
  · obtain ⟨r, rs, hrs⟩ := List.exists_cons_of_length_pos (h.rspq_pos.trans_eq hq.symm)
    rw [hrs, List.length_cons] at hq
    exact ⟨_, step_takes rfl hr hrs, State.cmdReadyO_eq_true.mpr ⟨hr, hb, hf, hq.le⟩⟩

/-! ## A served stream of any words -/

/-- A run keeps the invariant. -/
theorem run_keeps_inv {k : Nat} {s t : State} (h : s.Inv) (hrun : Host.Core.run Sys2Proof.core k s = .next t) :
    t.Inv := by
  induction k generalizing s with
  | zero => exact Host.Outcome.next.inj hrun ▸ h
  | succ k ih =>
    obtain ⟨u, hstep⟩ := everyStepAnswersANextState s
    exact ih (everyStepKeepsTheInvariant s u h hstep) ((run_succ_of_step hstep k).symm.trans hrun)

/-- Served its offered words, whether they decode or not, a vacant core has answered one response for each (R193,
R194). -/
theorem State.Vacant.serve_words {ws : List Cmd} {s : State} (h : s.Vacant) (hc : s.cmds = ws)
    (hturns : s.turns = serveTurns ws.length) :
    ∃ (t : State) (rs : List Response), Host.Core.run Sys2Proof.core (3 * ws.length) s = .next t ∧ t.Vacant ∧
      rs.length = ws.length ∧ t.taken = s.taken ++ rs ∧ t.cmds = [] := by
  induction ws generalizing s with
  | nil => exact ⟨s, [], rfl, h, rfl, (List.append_nil _).symm, hc⟩
  | cons w ws ih =>
    obtain ⟨u, hrun, hvacant, hcmds, hturns', hword⟩ := h.serve hc hturns
    obtain ⟨t, rs, hrunrest, hvacant', hlen, htaken, hcmds'⟩ := ih hvacant hcmds hturns'
    obtain ⟨r, chans, -, hframe⟩ := runWord_frame w s.collected
    have hr : u.taken = s.taken ++ [r] := by
      rw [← hvacant.collected_queue, ← h.collected_queue, ← Host.Outcome.next.inj (hframe.symm.trans hword)]
    refine ⟨t, r :: rs, (hrun _).trans hrunrest, hvacant', congrArg (· + 1) hlen, ?_, hcmds'⟩
    rw [htaken, hr, List.append_assoc, List.singleton_append]

/-- Settles O54, word by word. -/
theorem servedStreamIsAnsweredWordForWord : Obligations.ServedStreamIsAnsweredWordForWord := by
  intro s h hr hready hf hq hturns
  have hvacant : s.Vacant := ⟨hr, hready, hf, hq, h.rspq_pos⟩
  obtain ⟨t, rs, hrun, hvacant', hlen, htaken, hcmds⟩ := hvacant.serve_words rfl hturns
  exact ⟨t, rs, hrun, hlen, htaken, hcmds, hvacant'.queue, hvacant'.inFlight, run_keeps_inv h hrun⟩

end Sys2Proof.Machine
end
